-- ==== Sys2Proof/Word.lean ====
section
/-! DEFINITION. The value types of the engine: words, bytes, port words, and the shape of an
eight-element register file. -/

namespace Sys2Proof

/-- A word: 32 bits, unsigned, bit 31 most significant (00_scope.md R6, R11). -/
abbrev Word := BitVec 32

/-- A byte: 8 bits, bit 7 most significant (R11). -/
abbrev Byte := BitVec 8

/-- A command word of the port (30_encoding.md R80). -/
abbrev CmdWord := BitVec 16

/-- A response word of the port (30_encoding.md R85). -/
abbrev RespWord := BitVec 16

/-- Eight like elements, index 0 to 7: the shape of `H` and `V` (10_state.md R21, R22).
For `V` the elements are the working variables `a` to `h` in order (00_scope.md R14). -/
structure Oct (α : Type) where
  x0 : α
  x1 : α
  x2 : α
  x3 : α
  x4 : α
  x5 : α
  x6 : α
  x7 : α
deriving DecidableEq, Repr

end Sys2Proof
end

