-- ==== Sys2Proof/Config.lean ====
section
/-! DEFINITION. What is fixed or left free beside the state. The spec has no open size (00_scope.md R6);
its one argument is the order in which the two agents step (R7, R10). -/

namespace Sys2Proof

/-- The two agents that take steps (00_scope.md R8). -/
inductive Agent where
  | host
  | engine
deriving DecidableEq, Repr, Inhabited

/-- FREE VALUE. Which agent steps next when both have an enabled step and the state's own list of
turns says nothing (00_scope.md R10: "Which enabled step happens next is not fixed"). It has no body,
so no proof can know it. Applied to a plain counter of the state (DESIGN CHOICE, safe:
log entry 1). -/
opaque Config.freeAgent : Nat → Agent

end Sys2Proof
end

