-- ==== Sys2Proof/Machine/Arith.lean ====
section
/-! DEFINITION. The 32-bit word arithmetic of 40_word_arithmetic.md: seven primitive operations (R110 to R116)
and the six functions built from them (R117 to R122). None has state, flag or exception (R125). With
them the element-wise operations over eight-element register files. -/

namespace Sys2Proof

/-- Element `i` of a register file (10_state.md R21, R22). -/
def Oct.get {α : Type} (o : Oct α) (i : Fin 8) : α :=
  match i with
  | 0 => o.x0
  | 1 => o.x1
  | 2 => o.x2
  | 3 => o.x3
  | 4 => o.x4
  | 5 => o.x5
  | 6 => o.x6
  | 7 => o.x7

/-- The same function of every element. -/
def Oct.map {α β : Type} (f : α → β) (o : Oct α) : Oct β :=
  ⟨f o.x0, f o.x1, f o.x2, f o.x3, f o.x4, f o.x5, f o.x6, f o.x7⟩

/-- The same function of every pair of elements at one position. -/
def Oct.zip {α β γ : Type} (f : α → β → γ) (o : Oct α) (p : Oct β) : Oct γ :=
  ⟨f o.x0 p.x0, f o.x1 p.x1, f o.x2 p.x2, f o.x3 p.x3,
   f o.x4 p.x4, f o.x5 p.x5, f o.x6 p.x6, f o.x7 p.x7⟩

namespace Machine

/-- `rotr(x, n)` (R110): bit i of the result is bit (i + n) mod 32 of x. The amount is below 32 by its
type (93_implementation_defined.md U2). -/
def rotr (x : Word) (n : Fin 32) : Word :=
  if n = 0 then x else (x >>> n.val) ||| (x <<< (32 - n.val))

/-- `shr(x, n)` (R111): logical right shift, zero-filled. -/
def shr (x : Word) (n : Fin 32) : Word := x >>> n.val

/-- `and(x, y)` (R112). -/
def wordAnd (x y : Word) : Word := x &&& y

/-- `or(x, y)` (R113). -/
def wordOr (x y : Word) : Word := x ||| y

/-- `xor(x, y)` (R114). -/
def wordXor (x y : Word) : Word := x ^^^ y

/-- `not(x)` (R115). -/
def wordNot (x : Word) : Word := ~~~x

/-- `add_mod(x, y)` (R116): addition modulo 2^32, silent wraparound. -/
def addMod (x y : Word) : Word := x + y

/-- `s0(x)` (R117). -/
def smallSigma0 (x : Word) : Word := wordXor (wordXor (rotr x 7) (rotr x 18)) (shr x 3)

/-- `s1(x)` (R118). -/
def smallSigma1 (x : Word) : Word := wordXor (wordXor (rotr x 17) (rotr x 19)) (shr x 10)

/-- `S0(x)` (R119). -/
def bigSigma0 (x : Word) : Word := wordXor (wordXor (rotr x 2) (rotr x 13)) (rotr x 22)

/-- `S1(x)` (R120). -/
def bigSigma1 (x : Word) : Word := wordXor (wordXor (rotr x 6) (rotr x 11)) (rotr x 25)

/-- `ch(e, f, g)` (R121). -/
def ch (e f g : Word) : Word := wordXor (wordAnd e f) (wordAnd (wordNot e) g)

/-- `maj(a, b, c)` (R122). -/
def maj (a b c : Word) : Word := wordXor (wordXor (wordAnd a b) (wordAnd a c)) (wordAnd b c)

end Machine

end Sys2Proof
end

