-- ==== Sys2Proof/Machine/State.lean ====
section
/-! DEFINITION. The state of the machine as plain data: the engine's own storage, exactly the table of
10_state.md R20, and around it the command port and the order of the steps. -/

namespace Sys2Proof.Machine

/-- `PHASE`, eight values, no reserved one (10_state.md R30: "a model may use an enumerated type with
these eight constructors"). The 3-bit codes are `Phase.code`. -/
inductive Phase where
  | idle
  | pad
  | load
  | expand
  | round
  | update
  | done
  | error
deriving DecidableEq, Repr

/-- `FIN`, four values: how far the padding of the message has gone (10_state.md R32). -/
inductive Finalization where
  | none
  | pend1
  | pend2
  | last
deriving DecidableEq, Repr

/-- An index space of at most sixty-four elements (20_memory.md R50): pairs of index and value, the
indices strictly rising and below 64. An index that is not listed is an element nothing has written
since reset: it holds no value (10_state.md R38). DESIGN CHOICE, safe: log entry 14. -/
abbrev Memory (α : Type) := List (Nat × α)

/-- The complete state of one engine "and nothing else" (10_state.md R20). -/
structure Engine where
  /-- `H[0..7]`, the State (R21). -/
  h : Oct Word
  /-- `V[0..7]`, the working variables `a..h` (R22). -/
  v : Oct Word
  /-- `W[0..63]`, the schedule memory (R23). -/
  w : Memory Word
  /-- `BUF[0..63]`, the block buffer (R25). -/
  buf : Memory Byte
  /-- `LEN`, the number of message bits accepted (R28). -/
  len : BitVec 64
  /-- `PHASE` (R30). -/
  phase : Phase
  /-- `T`, six bits (R31). -/
  t : Fin 64
  /-- `FIN` (R32). -/
  fin : Finalization
deriving DecidableEq, Repr

/-- One entry of the order of steps: an agent's turn (00_scope.md R7, R10), or the reset event of the
environment, which "can occur in any state, between any two steps" (70_reset_and_hazards.md R250). -/
inductive Turn where
  | take (a : Agent)
  | reset
deriving DecidableEq, Repr

/-- The machine: the engine, its command port, and the order of the steps. -/
structure State where
  /-- The engine's storage. -/
  eng : Engine
  /-- The host's words still to be answered; the head is the word presented, and a held word stays
  there, unchanged (20_memory.md R62, 10_state.md R40). DESIGN CHOICE, unsafe: log entry 2. -/
  cmds : List CmdWord
  /-- The responses produced so far, oldest first (30_encoding.md R85). DESIGN CHOICE, safe: log entry 3. -/
  resps : List RespWord
  /-- The MODEL's own field: who takes the next steps (DESIGN CHOICE, safe: log entry 1); a reset event can
  be one of its entries (DESIGN CHOICE, safe: log entry 4). -/
  turns : List Turn
  /-- The MODEL's own field: how many choices of order were drawn from `Config.freeAgent`
  (DESIGN CHOICE, safe: log entry 1). -/
  drawn : Nat
deriving DecidableEq, Repr

/-- Why the machine stops. No run from reset raises either fault (10_state.md R38, R39). -/
inductive Fault where
  /-- Raised by LOAD, EXPAND and ROUND where they read an element of the memories BUF or W that nothing
  has written since reset (10_state.md R38: "treat a read of an absent element as a fault of the
  model"; 92_eei_decisions.md D17, 93_implementation_defined.md U3). Safe: the machine stops. -/
  | unwrittenCell
  /-- Raised by a step in a combination of PHASE, T, FIN and LEN that no rule produces
  (60_exceptions.md R237: "a model gives them no step (stuck)"). Safe: the machine stops (DEDUCED: log entry 6). -/
  | malformedState
deriving DecidableEq, Repr

/-- Why an instruction has no meaning here. No step of the machine answers either. -/
inductive Refusal where
  /-- An instruction of the opcode table without a meaning yet; `exec` names it. Safe. -/
  | notModelled (mnemonic : String)
  /-- A micro-step asked for in a phase that does not select it (30_encoding.md R88: micro-steps "are
  selected by the PHASE register"). Safe: `step` only runs the micro-step that PHASE selects
  (DESIGN CHOICE: log entry 9). -/
  | notSelected
deriving DecidableEq, Repr

/-- The engine after the reset event (10_state.md R37): W and BUF hold no value. The spec gives the register file
V no value either; the model names zero (DESIGN CHOICE, unsafe: log entry 18). -/
def Engine.reset : Engine where
  h := iv
  v := ⟨0, 0, 0, 0, 0, 0, 0, 0⟩
  w := []
  buf := []
  len := 0
  phase := .idle
  t := 0
  fin := .none

/-- The machine right after reset, with nothing presented and nothing scheduled (10_state.md R37, 70_reset_and_hazards.md R250). -/
def State.reset : State where
  eng := Engine.reset
  cmds := []
  resps := []
  turns := []
  drawn := 0

end Sys2Proof.Machine
end

