-- ==== Sys2Proof/Machine/Flags.lean ====
section
/-! DEFINITION. The codes of PHASE and FIN, and every flag of the engine: BUSY, DV and ERR, computed from
PHASE, and the STATUS view they form (10_state.md R30, R32, R33). The word arithmetic has no flags
(40_word_arithmetic.md R125). -/

namespace Sys2Proof.Machine

/-- The 3-bit code of a phase (10_state.md R30). -/
def Phase.code : Phase → BitVec 3
  | .idle => 0
  | .pad => 1
  | .load => 2
  | .expand => 3
  | .round => 4
  | .update => 5
  | .done => 6
  | .error => 7

/-- The 2-bit code of FIN (10_state.md R32). -/
def Finalization.code : Finalization → BitVec 2
  | .none => 0
  | .pend1 => 1
  | .pend2 => 2
  | .last => 3

/-- BUSY: PHASE is PAD, LOAD, EXPAND, ROUND or UPDATE (10_state.md R30, R33). -/
def Phase.busy : Phase → Bool
  | .idle => false
  | .pad => true
  | .load => true
  | .expand => true
  | .round => true
  | .update => true
  | .done => false
  | .error => false

/-- DV, digest valid: PHASE is DONE (10_state.md R33). -/
def Phase.digestValid (p : Phase) : Bool := p = .done

/-- ERR: PHASE is ERROR (10_state.md R33). -/
def Phase.failed (p : Phase) : Bool := p = .error

/-- `STATUS = 0b00000 || ERR || DV || BUSY` (44_digest.md R201). -/
def status (p : Phase) : Byte :=
  (0#5 ++ BitVec.ofBool p.failed ++ BitVec.ofBool p.digestValid ++ BitVec.ofBool p.busy : BitVec 8)

end Sys2Proof.Machine
end

