-- ==== Sys2Proof/Machine/Sha256.lean ====
section
/-! DEFINITION. The pure functions of the spec (00_scope.md R15): `pad` and `blocks` (41_padding.md R140, R142),
`schedule` (42_schedule.md R160), `round` and `compress` (43_compression.md R176, R175), `serialize`, `to_hex`,
`hexdigit` and `hash` (44_digest.md R196, R197, R206, R195). The steps of the engine are built from the
same pieces (`packWord`, `be64`, `scheduleWord`, `roundFn`, `wordByte`, `hexDigit`). -/

namespace Sys2Proof.Machine

/-- The one failure of the core (60_exceptions.md R220). -/
inductive CoreError where
  | inputTooLarge
deriving DecidableEq, Repr

/-- Four bytes as a word, the first most significant (20_memory.md R52). -/
def packWord (b0 b1 b2 b3 : Byte) : Word := b0 ++ b1 ++ b2 ++ b3

/-- `be64(L)`: the eight bytes of a 64-bit length, most significant first (20_memory.md R53, 41_padding.md R140). -/
def be64 (l : BitVec 64) : List Byte :=
  [l.extractLsb' 56 8, l.extractLsb' 48 8, l.extractLsb' 40 8, l.extractLsb' 32 8,
   l.extractLsb' 24 8, l.extractLsb' 16 8, l.extractLsb' 8 8, l.extractLsb' 0 8]

/-- The number of zero bytes that `pad` appends, `(55 - n) mod 64` (41_padding.md R140). -/
def padZeros (n : Nat) : Nat := (119 - n % 64) % 64

/-- `pad(m)` (41_padding.md R140). -/
def pad (m : List Byte) : Except CoreError (List Byte) :=
  if 2 ^ 64 ≤ 8 * m.length then .error .inputTooLarge
  else .ok (m ++ [0x80] ++ List.replicate (padZeros m.length) 0 ++ be64 (BitVec.ofNat 64 (8 * m.length)))

/-- The words of a byte sequence, four bytes each (20_memory.md R52); a rest of fewer than four bytes,
which no block has, is dropped. -/
def wordsOf : List Byte → List Word
  | b0 :: b1 :: b2 :: b3 :: rest => packWord b0 b1 b2 b3 :: wordsOf rest
  | _ => []

/-- The first `n` blocks of a padded byte sequence (41_padding.md R142). -/
def takeBlocks : Nat → List Byte → List (List Word)
  | 0, _ => []
  | n + 1, p => wordsOf (p.take 64) :: takeBlocks n (p.drop 64)

/-- `blocks(p)`: consecutive blocks of sixteen words, in order (41_padding.md R142). -/
def blocks (p : List Byte) : List (List Word) := takeBlocks (p.length / 64) p

/-- One schedule word from the words at i-16, i-15, i-7 and i-2 (42_schedule.md R160). -/
def scheduleWord (w16 w15 w7 w2 : Word) : Word :=
  addMod (addMod (addMod w16 (smallSigma0 w15)) w7) (smallSigma1 w2)

/-- The word that follows the words computed so far. -/
def nextWord (w : List Word) : Word :=
  scheduleWord (w.getD (w.length - 16) 0) (w.getD (w.length - 15) 0) (w.getD (w.length - 7) 0)
    (w.getD (w.length - 2) 0)

/-- Append `n` schedule words in increasing index order. -/
def extendSchedule : Nat → List Word → List Word
  | 0, w => w
  | n + 1, w => extendSchedule n (w ++ [nextWord w])

/-- `schedule(M)`: sixteen words to sixty-four (42_schedule.md R160). -/
def schedule (m : List Word) : List Word := extendSchedule 48 m

/-- `round(v, k, x)` in its simultaneous form (43_compression.md R176). -/
def roundFn (v : Oct Word) (k x : Word) : Oct Word :=
  let temp1 := addMod (addMod (addMod (addMod v.x7 (bigSigma1 v.x4)) (ch v.x4 v.x5 v.x6)) k) x
  let temp2 := addMod (bigSigma0 v.x0) (maj v.x0 v.x1 v.x2)
  ⟨addMod temp1 temp2, v.x0, v.x1, v.x2, addMod v.x3 temp1, v.x4, v.x5, v.x6⟩

/-- The working variables after the first `t` rounds, `v_t` of 43_compression.md R175. -/
def rounds (s : Oct Word) (w : List Word) : Nat → Oct Word
  | 0 => s
  | t + 1 => roundFn (rounds s w t) (kAt t) (w.getD t 0)

/-- `compress(S, w)`: the rounds, then the element-wise sum with the original State (43_compression.md R175). -/
def compress (s : Oct Word) (w : List Word) : Oct Word := Oct.zip addMod s (rounds s w 64)

/-- Byte `k` of a word, `k = 0` the most significant: bits `31 - 8k : 24 - 8k` (44_digest.md R196). -/
def wordByte (x : Word) (k : Nat) : Byte := x.extractLsb' (24 - 8 * k) 8

/-- A word as four bytes, most significant first (20_memory.md R54). -/
def wordBytes (x : Word) : List Byte := [wordByte x 0, wordByte x 1, wordByte x 2, wordByte x 3]

/-- `serialize(S)`: thirty-two bytes, words in index order (44_digest.md R196). -/
def serialize (s : Oct Word) : List Byte :=
  wordBytes s.x0 ++ wordBytes s.x1 ++ wordBytes s.x2 ++ wordBytes s.x3 ++
  wordBytes s.x4 ++ wordBytes s.x5 ++ wordBytes s.x6 ++ wordBytes s.x7

/-- `hexdigit(n)`: the ASCII code of a lower-case hexadecimal digit (44_digest.md R206). -/
def hexDigit (n : BitVec 4) : Byte :=
  if n.toNat < 10 then BitVec.ofNat 8 (0x30 + n.toNat) else BitVec.ofNat 8 (0x57 + n.toNat)

/-- The high nibble of a byte, bits 7:4 (20_memory.md R55). -/
def highNibble (b : Byte) : BitVec 4 := b.extractLsb' 4 4

/-- The low nibble of a byte, bits 3:0 (20_memory.md R55). -/
def lowNibble (b : Byte) : BitVec 4 := b.extractLsb' 0 4

/-- `to_hex(d)`: two characters a byte, the high nibble first (44_digest.md R197). -/
def toHex : List Byte → List Byte
  | [] => []
  | b :: rest => hexDigit (highNibble b) :: hexDigit (lowNibble b) :: toHex rest

/-- The State after the blocks of a padded message, in order (44_digest.md R195). -/
def foldBlocks (s : Oct Word) (bs : List (List Word)) : Oct Word :=
  bs.foldl (fun s b => compress s (schedule b)) s

/-- `hash(m)` (44_digest.md R195). -/
def hashOf (m : List Byte) : Except CoreError (List Byte) :=
  match pad m with
  | .error e => .error e
  | .ok p => .ok (serialize (foldBlocks iv (blocks p)))

end Sys2Proof.Machine
end

