-- ==== Sys2Proof/Machine/Ops.lean ====
section
/-! DEFINITION. The operations that the instructions share: reading and writing the index spaces, answering
a command, the tests before a command's own effect, raising the one exception, starting a message,
the reset event, and running a micro-step. -/

namespace Sys2Proof.Machine

/-- The canonical form of an index space: indices strictly rising, all below 64 (20_memory.md R50). An
element that holds no value is not listed. -/
abbrev Memory.wf {α : Type} (m : Memory α) : Prop :=
  m.Pairwise (fun a b => a.1 < b.1) ∧ ∀ c ∈ m, c.1 < 64

/-- Read element `i`; `none` where nothing has written it since reset (10_state.md R38). -/
def Memory.get {α : Type} : Memory α → Nat → Option α
  | [], _ => none
  | (k, v) :: m, i => if i = k then some v else Memory.get m i

/-- Write element `i`, in place of an old value or at its place in the order. -/
def Memory.set {α : Type} : Memory α → Nat → α → Memory α
  | [], i, v => [(i, v)]
  | (k, u) :: m, i, v =>
    if i < k then (i, v) :: (k, u) :: m
    else if i = k then (i, v) :: m
    else (k, u) :: Memory.set m i v

/-- Write consecutive elements from index `i` on. -/
def Memory.setFrom {α : Type} (m : Memory α) (i : Nat) : List α → Memory α
  | [] => m
  | v :: vs => Memory.setFrom (Memory.set m i v) (i + 1) vs

/-- The four response codes the engine produces (30_encoding.md R86); no other is ever produced. -/
inductive RespCode where
  | ok
  | nakIllegal
  | nakState
  | errTooLarge
deriving DecidableEq, Repr

/-- The code of a response, bits 15:12 (30_encoding.md R86). -/
def RespCode.bits : RespCode → BitVec 4
  | .ok => 0
  | .nakIllegal => 1
  | .nakState => 2
  | .errTooLarge => 3

/-- `respond(code, data)` as a word: code in bits 15:12, zero in 11:8, data in 7:0 (30_encoding.md R85). -/
def respWord (code : RespCode) (data : Byte) : RespWord := code.bits ++ 0#4 ++ data

/-- Answer the presented word: the response goes out and the word leaves the port, in the one step
that accepts it (20_memory.md R62). -/
def State.respond (s : State) (code : RespCode) (data : Byte) : State :=
  { s with cmds := s.cmds.tail, resps := s.resps ++ [respWord code data] }

/-- A word that is not legal: NAK_ILLEGAL in any phase, no state change (30_encoding.md R84, 60_exceptions.md R223). -/
def State.refuseIllegal (s : State) : State := s.respond .nakIllegal 0

/-- What executing a command gives: the engine after it, and the response. -/
structure Answer where
  eng : Engine
  code : RespCode
  data : Byte
deriving DecidableEq, Repr

/-- Carry out an answer: the engine changes and the response goes out, in one step. -/
def State.answer (s : State) (a : Answer) : State := { s with eng := a.eng }.respond a.code a.data

/-- Tests 3 to 5 of the command step (30_encoding.md R90), for a legal command other than RDSTAT: held
while PHASE is busy, where nothing happens and no response is produced (R92) (DEDUCED, safe: log entry 8); refused with NAK_STATE
where the phase does not permit it (R91); else the command's own effect. -/
def State.command (permitted : Phase → Bool) (effect : Engine → Answer) (s : State) : State :=
  if s.eng.phase.busy then s
  else if permitted s.eng.phase then s.answer (effect s.eng)
  else s.respond .nakState 0

/-- `raise InputTooLarge` (60_exceptions.md R222): PHASE becomes ERROR and nothing else changes; the response
is ERR_TOOLARGE. Nothing is saved and nothing vectors (R227). -/
def raiseInputTooLarge (e : Engine) : Answer where
  eng := { e with phase := .error }
  code := .errTooLarge
  data := 0

/-- The start of a message (44_digest.md R198). There is no return from the exception: besides the reset
event this is the only way out of phase ERROR (60_exceptions.md R228). V, W and BUF are kept. -/
def Engine.startMessage (e : Engine) : Engine :=
  { e with h := iv, len := 0, t := 0, fin := .none, phase := .idle }

/-- The reset event (70_reset_and_hazards.md R250): every piece of the engine's state takes its reset value. A
word being held stays presented (R251), and the responses already given stay given. -/
def State.resetEvent (s : State) : State := { s with eng := Engine.reset }

/-- The outcome of a micro-step: the engine after it, or why there is no step. -/
inductive MicroResult where
  | next (e : Engine)
  | stop (f : Fault)
deriving DecidableEq, Repr

/-- Run the micro-step that phase `p` selects (30_encoding.md R88). It touches nothing but the engine. -/
def State.micro (p : Phase) (effect : Engine → MicroResult) (s : State) :
    Host.Outcome State Fault Refusal :=
  if s.eng.phase = p then
    match effect s.eng with
    | .next e => .next { s with eng := e }
    | .stop f => .fault f
  else .refused .notSelected

/-- `T <- T + 1` below 63 (10_state.md R31: the steps test `T = 63` before incrementing). -/
def nextIndex (t : Fin 64) : Fin 64 := t + 1

end Sys2Proof.Machine
end

