-- ==== Sys2Proof/Machine/Operands.lean ====
section
/-! DEFINITION. Where each instruction finds its operands: the field `fill` of LEN, the views of H, the
block in BUF, and the registers a micro-step reads (20_memory.md R58, R68). -/

namespace Sys2Proof.Machine

/-- `fill = LEN[8:3]`, the number of message bytes of the current block in BUF (10_state.md R29). -/
def Engine.fill (e : Engine) : Nat := (e.len.extractLsb' 3 6).toNat

/-- The largest length, `2^64 - 8` bits (10_state.md R28, 41_padding.md R149). -/
def maxLen : BitVec 64 := 0xfffffffffffffff8

/-- `DIGEST[i] = H[i div 4][31 - 8 (i mod 4) : 24 - 8 (i mod 4)]` (10_state.md R34). -/
def digestByte (h : Oct Word) (i : Nat) : Byte := wordByte (h.get (Fin.ofNat 8 (i / 4))) (i % 4)

/-- `HEX[j]`: the high nibble of `DIGEST[j div 2]` for even `j`, the low nibble for odd `j` (44_digest.md R200). -/
def hexChar (h : Oct Word) (j : Nat) : Byte :=
  if j % 2 = 0 then hexDigit (highNibble (digestByte h (j / 2)))
  else hexDigit (lowNibble (digestByte h (j / 2)))

/-- Word `j` of the block in BUF (20_memory.md R52); `none` where one of its bytes holds no value. -/
def blockWord (buf : Memory Byte) (j : Nat) : Option Word :=
  match buf.get (4 * j), buf.get (4 * j + 1), buf.get (4 * j + 2), buf.get (4 * j + 3) with
  | some b0, some b1, some b2, some b3 => some (packWord b0 b1 b2 b3)
  | _, _, _, _ => none

/-- The `n` words of the block in BUF from word `j` on. -/
def blockWords (buf : Memory Byte) : Nat → Nat → Option (List Word)
  | _, 0 => some []
  | j, n + 1 =>
    match blockWord buf j, blockWords buf (j + 1) n with
    | some x, some xs => some (x :: xs)
    | _, _ => none

/-- The schedule word that EXPAND computes with index `t`, from `W[t-16]`, `W[t-15]`, `W[t-7]` and `W[t-2]`
(42_schedule.md R162); `none` where one of them holds no value. -/
def expandWord (w : Memory Word) (t : Nat) : Option Word :=
  match w.get (t - 16), w.get (t - 15), w.get (t - 7), w.get (t - 2) with
  | some w16, some w15, some w7, some w2 => some (scheduleWord w16 w15 w7 w2)
  | _, _, _, _ => none

/-- The combinations that no rule produces (93_implementation_defined.md U1): PAD with FIN NONE or LAST, UPDATE
with FIN PEND1, T not zero outside EXPAND and ROUND, T below 16 in EXPAND, LEN not a multiple of 8. -/
def Engine.malformed (e : Engine) : Bool :=
  (e.phase = .pad && (e.fin = .none || e.fin = .last)) ||
  (e.phase = .update && e.fin = .pend1) ||
  (e.phase != .expand && e.phase != .round && e.t != 0) ||
  (e.phase = .expand && e.t.val < 16) ||
  e.len.toNat % 8 != 0

end Sys2Proof.Machine
end

