-- ==== Sys2Proof/Machine/Compression.lean ====
section
/-! DEFINITION. The compression function: ROUND and UPDATE (43_compression.md R177, R178). -/

namespace Sys2Proof.Machine

/-- The effect of ROUND (43_compression.md R177): `V <- round(V, K[T], W[T])`; after round 63 comes UPDATE.
A read of an element of W that nothing has written since reset stops the
step: the spec's own fault (10_state.md R38, 92_eei_decisions.md D17, 93_implementation_defined.md U3). -/
def roundEffect (e : Engine) : MicroResult :=
  match e.w.get e.t.val with
  | some x =>
    if e.t = 63 then
      .next { e with v := roundFn e.v (kAt e.t.val) x, t := 0, phase := .update }
    else .next { e with v := roundFn e.v (kAt e.t.val) x, t := nextIndex e.t }
  | none => .stop .unwrittenCell

/-- ROUND (43_compression.md R177). -/
def execRound (s : State) : Host.Outcome State Fault Refusal := s.micro .round roundEffect

/-- The effect of UPDATE (43_compression.md R178): `H[i] <- H[i] +32 V[i]`, and FIN says what comes next. FIN
PEND1 has no step. -/
def updateEffect (e : Engine) : MicroResult :=
  match e.fin with
  | .none => .next { e with h := Oct.zip addMod e.h e.v, phase := .idle }
  | .pend2 => .next { e with h := Oct.zip addMod e.h e.v, phase := .pad }
  | .last => .next { e with h := Oct.zip addMod e.h e.v, phase := .done, fin := .none }
  | .pend1 => .stop .malformedState

/-- UPDATE (43_compression.md R178). -/
def execUpdate (s : State) : Host.Outcome State Fault Refusal := s.micro .update updateEffect

end Sys2Proof.Machine
end

