-- ==== Sys2Proof/Machine/Digest.lean ====
section
/-! DEFINITION. Digest assembly and the commands that do not belong to the padding unit: INIT, RDDIG, RDHEX,
RDSTAT (44_digest.md R198 to R201). -/

namespace Sys2Proof.Machine

/-- INIT is permitted in IDLE, DONE and ERROR, that is in every phase that is not busy (30_encoding.md R91). -/
def permitsInit (p : Phase) : Bool := !p.busy

/-- The digest is read in DONE only (30_encoding.md R91). -/
def permitsRead (p : Phase) : Bool := p = .done

/-- The effect of `INIT` (44_digest.md R198). -/
def initEffect (e : Engine) : Answer where
  eng := e.startMessage
  code := .ok
  data := 0

/-- `INIT` (44_digest.md R198). -/
def execInit (s : State) : Host.Outcome State Fault Refusal :=
  .next (s.command permitsInit initEffect)

/-- The effect of `RDDIG i` (44_digest.md R199): no state changes. -/
def rddigEffect (i : Byte) (e : Engine) : Answer where
  eng := e
  code := .ok
  data := digestByte e.h i.toNat

/-- `RDDIG i` (44_digest.md R199). A term with an index above 31 stands for an illegal word and is
answered as one (30_encoding.md R84; DEDUCED, safe: log entry 10). -/
def execRddig (i : Byte) (s : State) : Host.Outcome State Fault Refusal :=
  if i.toNat < 32 then .next (s.command permitsRead (rddigEffect i)) else .next s.refuseIllegal

/-- The effect of `RDHEX j` (44_digest.md R200): no state changes. -/
def rdhexEffect (j : Byte) (e : Engine) : Answer where
  eng := e
  code := .ok
  data := hexChar e.h j.toNat

/-- `RDHEX j` (44_digest.md R200). A term with an index above 63 stands for an illegal word and is
answered as one (30_encoding.md R84; DEDUCED, safe: log entry 10). -/
def execRdhex (j : Byte) (s : State) : Host.Outcome State Fault Refusal :=
  if j.toNat < 64 then .next (s.command permitsRead (rdhexEffect j)) else .next s.refuseIllegal

/-- `RDSTAT` (44_digest.md R201): executed in every phase and never held (30_encoding.md R90, test 2). -/
def execRdstat (s : State) : Host.Outcome State Fault Refusal :=
  .next (s.respond .ok (status s.eng.phase))

end Sys2Proof.Machine
end

