-- ==== Sys2Proof/Machine/Padding.lean ====
section
/-! DEFINITION. The message padding unit: DATA, FINAL and PAD (41_padding.md R144, R145, R146). -/

namespace Sys2Proof.Machine

/-- DATA and FINAL are permitted in IDLE only (30_encoding.md R91). -/
def permitsMessage (p : Phase) : Bool := p = .idle

/-- The effect of `DATA b` (41_padding.md R144). The length is tested before the block-full condition
(60_exceptions.md R226). -/
def dataEffect (b : Byte) (e : Engine) : Answer :=
  if e.len = maxLen then raiseInputTooLarge e
  else
    { eng :=
        { e with
          buf := e.buf.set e.fill b
          len := e.len + 8
          phase := if e.fill = 63 then .load else e.phase }
      code := .ok
      data := 0 }

/-- `DATA b` (41_padding.md R144). -/
def execData (b : Byte) (s : State) : Host.Outcome State Fault Refusal :=
  .next (s.command permitsMessage (dataEffect b))

/-- The effect of `FINAL` (41_padding.md R145). -/
def finalEffect (e : Engine) : Answer where
  eng := { e with fin := .pend1, phase := .pad }
  code := .ok
  data := 0

/-- `FINAL` (41_padding.md R145). -/
def execFinal (s : State) : Host.Outcome State Fault Refusal :=
  .next (s.command permitsMessage finalEffect)

/-- The bytes that PAD writes from `BUF[fill]` on where the length fits (41_padding.md R146, first case). -/
def padTail (e : Engine) : List Byte := 0x80 :: (List.replicate (55 - e.fill) 0 ++ be64 e.len)

/-- The bytes that PAD writes from `BUF[fill]` on where it does not (41_padding.md R146, second case). -/
def padCut (e : Engine) : List Byte := 0x80 :: List.replicate (63 - e.fill) 0

/-- The whole block of the second padding block (41_padding.md R146, third case). -/
def padRest (e : Engine) : List Byte := List.replicate 56 0 ++ be64 e.len

/-- The effect of PAD (41_padding.md R146). FIN NONE or LAST has no step. -/
def padEffect (e : Engine) : MicroResult :=
  match e.fin with
  | .pend1 =>
    if e.fill ≤ 55 then
      .next { e with buf := e.buf.setFrom e.fill (padTail e), fin := .last, phase := .load }
    else
      .next { e with buf := e.buf.setFrom e.fill (padCut e), fin := .pend2, phase := .load }
  | .pend2 => .next { e with buf := e.buf.setFrom 0 (padRest e), fin := .last, phase := .load }
  | .none => .stop .malformedState
  | .last => .stop .malformedState

/-- PAD (41_padding.md R146). -/
def execPad (s : State) : Host.Outcome State Fault Refusal := s.micro .pad padEffect

end Sys2Proof.Machine
end

