-- ==== Sys2Proof/Machine/Schedule.lean ====
section
/-! DEFINITION. The message schedule expander: LOAD and EXPAND (42_schedule.md R161, R162). -/

namespace Sys2Proof.Machine

/-- The effect of LOAD (42_schedule.md R161): sixteen words out of BUF, V seeded from H.
A read of an element of BUF that nothing has written since reset stops the
step: the spec's own fault (10_state.md R38, 92_eei_decisions.md D17, 93_implementation_defined.md U3). -/
def loadEffect (e : Engine) : MicroResult :=
  match blockWords e.buf 0 16 with
  | some m =>
    .next { e with w := e.w.setFrom 0 m, v := e.h, t := 16, phase := .expand }
  | none => .stop .unwrittenCell

/-- LOAD (42_schedule.md R161). -/
def execLoad (s : State) : Host.Outcome State Fault Refusal := s.micro .load loadEffect

/-- The effect of EXPAND (42_schedule.md R162): one schedule word; after index 63 the rounds begin.
A read of an element of W that nothing has written since reset stops the
step: the spec's own fault (10_state.md R38, 92_eei_decisions.md D17, 93_implementation_defined.md U3). -/
def expandEffect (e : Engine) : MicroResult :=
  if e.t.val < 16 then .stop .malformedState
  else
    match expandWord e.w e.t.val with
    | some x =>
      if e.t = 63 then .next { e with w := e.w.set e.t.val x, t := 0, phase := .round }
      else .next { e with w := e.w.set e.t.val x, t := nextIndex e.t }
    | none => .stop .unwrittenCell

/-- EXPAND (42_schedule.md R162). -/
def execExpand (s : State) : Host.Outcome State Fault Refusal := s.micro .expand expandEffect

end Sys2Proof.Machine
end

