-- ==== Sys2Proof/Syntax.lean ====
section
/-! DEFINITION. The instructions: one constructor for each row of spec/opcode_table.json, six commands of
the host (format CMD) and five micro-steps of the engine (format UOP). -/

namespace Sys2Proof

/-- An instruction. The operand of a command is the command word's field `arg`, eight bits, unsigned
(30_encoding.md R80, R82); `WellFormed` says which operands have a legal word. -/
inductive Instr where
  /-- `INIT`: start a new message (44_digest.md R198). -/
  | init
  /-- `DATA b`: append one message byte (41_padding.md R144). -/
  | data (b : Byte)
  /-- `FINAL`: end of message (41_padding.md R145). -/
  | final
  /-- `RDDIG i`: read digest byte `i`, 0 to 31 (44_digest.md R199). -/
  | rddig (i : Byte)
  /-- `RDHEX j`: read hexadecimal character `j`, 0 to 63 (44_digest.md R200). -/
  | rdhex (j : Byte)
  /-- `RDSTAT`: read the status flags (44_digest.md R201). -/
  | rdstat
  /-- `PAD`: the padding micro-step (41_padding.md R146). -/
  | pad
  /-- `LOAD`: take the block and seed the working variables (42_schedule.md R161). -/
  | load
  /-- `EXPAND`: compute one schedule word (42_schedule.md R162). -/
  | expand
  /-- `ROUND`: perform one round (43_compression.md R177). -/
  | round
  /-- `UPDATE`: add the working variables into the State (43_compression.md R178). -/
  | update
deriving DecidableEq, Repr

end Sys2Proof
end

