-- ==== Sys2Proof/Machine/Dispatch.lean ====
section
/-! DEFINITION. The dispatch: one arm for each constructor of Instr, one direct call of its meaning. -/

namespace Sys2Proof.Machine

def exec (i : Instr) (s : State) : Host.Outcome State Fault Refusal :=
  match i with
  | .init => Sys2Proof.Machine.execInit s
  | .data b => Sys2Proof.Machine.execData b s
  | .final => Sys2Proof.Machine.execFinal s
  | .rddig n => Sys2Proof.Machine.execRddig n s
  | .rdhex n => Sys2Proof.Machine.execRdhex n s
  | .rdstat => Sys2Proof.Machine.execRdstat s
  | .pad => Sys2Proof.Machine.execPad s
  | .load => Sys2Proof.Machine.execLoad s
  | .expand => Sys2Proof.Machine.execExpand s
  | .round => Sys2Proof.Machine.execRound s
  | .update => Sys2Proof.Machine.execUpdate s

end Sys2Proof.Machine
end

