-- ==== Sys2Proof/WellFormed.lean ====
section
/-! DEFINITION. Which instruction terms have an encoding: the operand ranges of 30_encoding.md R82
and R93 ("An operand outside its range is an assembly error, not a word"). -/

namespace Sys2Proof

/-- `RDDIG` takes an index of five bits and `RDHEX` one of six (30_encoding.md R82); every other
instruction is well-formed as it stands. -/
def Instr.wellFormed : Instr → Bool
  | .rddig i => i.toNat < 32
  | .rdhex j => j.toNat < 64
  | .init => true
  | .data _ => true
  | .final => true
  | .rdstat => true
  | .pad => true
  | .load => true
  | .expand => true
  | .round => true
  | .update => true

end Sys2Proof
end

