-- ==== Sys2Proof/Decode.lean ====
section
/-! DEFINITION. The decoder of command words and of PHASE codes, total and rejecting by name, and after it
the encoder, each written from the tables of 30_encoding.md (R80 to R84, R88). -/

namespace Sys2Proof

/-- Why a code is no instruction (30_encoding.md R84 for words, R88 for PHASE codes). -/
inductive Illegal where
  /-- Opcode 0x0 or 0x7 to 0xF. -/
  | reservedOpcode
  /-- Field `rsv`, bits 11:8, is not zero. -/
  | reservedBits
  /-- INIT, FINAL or RDSTAT with a nonzero `arg`. -/
  | operandNotZero
  /-- RDDIG with `arg > 0x1F`, or RDHEX with `arg > 0x3F`. -/
  | indexOutOfRange
  /-- A PHASE code that selects no micro-step: IDLE, DONE or ERROR. -/
  | noMicroStep
deriving DecidableEq, Repr

/-- What an instruction is read from: a command word of the port, or the code in the PHASE register,
which stands where a fetched word stands in a processor (30_encoding.md R88). -/
inductive Code where
  | cmd (c : CmdWord)
  | uop (p : BitVec 3)
deriving DecidableEq, Repr

/-- Field `op` of a command word, bits 15:12 (30_encoding.md R80). -/
def opField (c : CmdWord) : BitVec 4 := c.extractLsb' 12 4

/-- Field `rsv` of a command word, bits 11:8 (30_encoding.md R80). -/
def rsvField (c : CmdWord) : BitVec 4 := c.extractLsb' 8 4

/-- Field `arg` of a command word, bits 7:0 (30_encoding.md R80). -/
def argField (c : CmdWord) : Byte := c.extractLsb' 0 8

/-- A command without operand: `arg` must be 0x00 (30_encoding.md R82). -/
def decodeBare (i : Instr) (arg : Byte) : Except Illegal Instr :=
  if arg = 0 then .ok i else .error .operandNotZero

/-- A command with an index below `bound` in `arg`: the bits above the index must be 0 (30_encoding.md R82). -/
def decodeIndexed (i : Byte → Instr) (bound : Nat) (arg : Byte) : Except Illegal Instr :=
  if arg.toNat < bound then .ok (i arg) else .error .indexOutOfRange

/-- The opcode map (30_encoding.md R81), with `rsv` already checked. -/
def decodeOp (op : Nat) (arg : Byte) : Except Illegal Instr :=
  match op with
  | 1 => decodeBare .init arg
  | 2 => .ok (.data arg)
  | 3 => decodeBare .final arg
  | 4 => decodeIndexed .rddig 32 arg
  | 5 => decodeIndexed .rdhex 64 arg
  | 6 => decodeBare .rdstat arg
  | _ => .error .reservedOpcode

/-- The command decoder. It depends on the word alone (30_encoding.md R83). -/
def decodeCommand (c : CmdWord) : Except Illegal Instr :=
  if rsvField c = 0 then decodeOp (opField c).toNat (argField c) else .error .reservedBits

/-- `legal(c)` of 30_encoding.md R83. -/
def legal (c : CmdWord) : Bool :=
  match decodeCommand c with
  | .ok _ => true
  | .error _ => false

/-- The micro-step a PHASE code selects (30_encoding.md R88). -/
def decodeMicroStep (p : BitVec 3) : Except Illegal Instr :=
  match p.toNat with
  | 1 => .ok .pad
  | 2 => .ok .load
  | 3 => .ok .expand
  | 4 => .ok .round
  | 5 => .ok .update
  | _ => .error .noMicroStep

/-- The whole decoder. -/
def decode : Code → Except Illegal Instr
  | .cmd c => decodeCommand c
  | .uop p => decodeMicroStep p

/-- A command word from its three fields (30_encoding.md R80). -/
def cmdWord (op rsv : BitVec 4) (arg : Byte) : CmdWord := op ++ rsv ++ arg

/-- The encoder: the word of a command (30_encoding.md R81), the PHASE code of a micro-step (R88). -/
def encode : Instr → Code
  | .init => .cmd (cmdWord 1 0 0)
  | .data b => .cmd (cmdWord 2 0 b)
  | .final => .cmd (cmdWord 3 0 0)
  | .rddig i => .cmd (cmdWord 4 0 i)
  | .rdhex j => .cmd (cmdWord 5 0 j)
  | .rdstat => .cmd (cmdWord 6 0 0)
  | .pad => .uop 1
  | .load => .uop 2
  | .expand => .uop 3
  | .round => .uop 4
  | .update => .uop 5

/-- The code of a row of spec/opcode_table.json whose `nbits` bits are `w`: a command row has 16 bits, a
micro-step row 3, given in one whole byte. `none` where `w` does not fit. -/
def tableCode (nbits w : Nat) : Option Code :=
  if nbits ≤ 8 then
    if w < 8 then some (.uop (BitVec.ofNat 3 w)) else none
  else if nbits ≤ 16 then
    if w < 65536 then some (.cmd (BitVec.ofNat 16 w)) else none
  else none

/-- The instruction the decoder reads from an opcode-table word, bit 0 least significant. -/
def decodeTableWord (nbits w : Nat) : Option Instr :=
  match tableCode nbits w with
  | none => none
  | some c =>
    match decode c with
    | .ok i => some i
    | .error _ => none

end Sys2Proof
end

