-- ==== Sys2Proof/Machine/Sequencer.lean ====
section
/-! DEFINITION. What happens next: which step is enabled, who takes it, and which instruction it runs. A
command is read from the presented word; a micro-step is read from the PHASE register, which stands where
a program counter stands (10_state.md R35, 30_encoding.md R88). Also how an instruction's bits are put where
the next step reads them. -/

namespace Sys2Proof.Machine

/-- RDSTAT, the one legal command that is never held (30_encoding.md R90, test 2). -/
def isStatusRead (c : CmdWord) : Bool := decodeCommand c = .ok .rdstat

/-- A presented word is held: legal, not RDSTAT, and PHASE is busy (30_encoding.md R90, test 3, R92). -/
def held (c : CmdWord) (p : Phase) : Bool := legal c && !isStatusRead c && p.busy

/-- The host's command step is enabled: a word is presented and not held (00_scope.md R10 (b)). -/
def State.hostEnabled (s : State) : Bool :=
  match s.cmds with
  | [] => false
  | c :: _ => !held c s.eng.phase

/-- The engine's micro-step is enabled: PHASE is busy (00_scope.md R10 (a)). -/
def State.engineEnabled (s : State) : Bool := s.eng.phase.busy

/-- Both agents have an enabled step. -/
def State.contended (s : State) : Bool := s.hostEnabled && s.engineEnabled

/-- Which agent the order of steps names: the head of `turns`, or the free value where `turns` is empty. -/
def State.chosen (s : State) : Agent :=
  match s.turns with
  | .take a :: _ => a
  | .reset :: _ => Config.freeAgent s.drawn
  | [] => Config.freeAgent s.drawn

/-- Who steps: where both agents are enabled, the chosen one; where one is, that one (DESIGN CHOICE, safe:
log entry 11). -/
def State.mover (s : State) : Option Agent :=
  match s.hostEnabled, s.engineEnabled with
  | true, true => some s.chosen
  | true, false => some .host
  | false, true => some .engine
  | false, false => none

/-- Use up the head of the order of steps; where a choice was drawn from the free value, count it. -/
def State.passTurn (s : State) : State :=
  match s.turns with
  | _ :: ts => { s with turns := ts }
  | [] => if s.contended then { s with drawn := s.drawn + 1 } else s

/-- What the next step is. -/
inductive Event where
  /-- The reset event (70_reset_and_hazards.md R250). -/
  | reset
  /-- A combination that no rule produces: no step (93_implementation_defined.md U1). -/
  | stuck
  /-- No step is enabled: the engine keeps its state (60_exceptions.md R236, 70_reset_and_hazards.md R260).
  DEDUCED, safe: log entry 7. -/
  | wait
  /-- The presented word is illegal: NAK_ILLEGAL (30_encoding.md R84). -/
  | illegal
  /-- An instruction: the presented command, or the micro-step that PHASE selects. -/
  | run (i : Instr)
deriving DecidableEq, Repr

/-- The command step's reading of the presented word (30_encoding.md R90, test 1). -/
def commandEvent (c : CmdWord) : Event :=
  match decodeCommand c with
  | .ok i => .run i
  | .error _ => .illegal

/-- The micro-step that a phase selects (30_encoding.md R88). -/
def microEvent (p : Phase) : Event :=
  match decodeMicroStep p.code with
  | .ok i => .run i
  | .error _ => .wait

/-- The next step, from the agents' enabled steps (00_scope.md R10). -/
def State.agentEvent (s : State) : Event :=
  match s.mover with
  | some .engine => microEvent s.eng.phase
  | some .host =>
    match s.cmds with
    | c :: _ => commandEvent c
    | [] => .wait
  | none => .wait

/-- The reset event is due. -/
def State.resetDue (s : State) : Bool := s.turns.head? = some .reset

/-- The next step. A reset can occur in any state (70_reset_and_hazards.md R250). -/
def State.nextEvent (s : State) : Event :=
  if s.resetDue then .reset
  else if s.eng.malformed then .stuck
  else s.agentEvent

/-- A memory with `v` written to every index below `n` that holds no value. -/
def Memory.fillBelow {α : Type} (m : Memory α) (v : α) : Nat → Memory α
  | 0 => m
  | n + 1 =>
    match Memory.get m n with
    | some _ => Memory.fillBelow m v n
    | none => Memory.fillBelow (Memory.set m n v) v n

/-- An engine whose PHASE selects the micro-step with code `p`, with the control state and the written
operands that this micro-step needs in order to run (DESIGN CHOICE, unsafe: log entry 12); all else as it was. -/
def Engine.selectMicroStep (e : Engine) (p : Nat) : Engine :=
  let e := { e with len := e.len &&& 0xfffffffffffffff8 }
  match p with
  | 1 =>
    { e with phase := .pad, t := 0, fin := if e.fin = .pend2 then .pend2 else .pend1 }
  | 2 => { e with phase := .load, t := 0, buf := e.buf.fillBelow 0 64 }
  | 3 =>
    { e with phase := .expand, t := if e.t.val < 16 then 16 else e.t, w := e.w.fillBelow 0 64 }
  | 4 => { e with phase := .round, w := e.w.fillBelow 0 64 }
  | 5 =>
    { e with
      phase := .update
      t := 0
      fin := if e.fin = .pend1 then .none else e.fin }
  | _ => e

/-- An engine that accepts the word `c` at once: a held word or a combination without a step is
brought to phase IDLE (DESIGN CHOICE, unsafe: log entry 12); all else as it was. -/
def Engine.readyFor (e : Engine) (c : CmdWord) : Engine :=
  if held c e.phase || e.malformed then
    { e with phase := .idle, t := 0, len := e.len &&& 0xfffffffffffffff8 }
  else e

/-- A state whose very next step reads and runs the instruction with the given code. -/
def State.withCode (s : State) : Code → State
  | .cmd c =>
    { s with
      eng := s.eng.readyFor c
      cmds := c :: s.cmds
      turns := .take .host :: s.turns }
  | .uop p =>
    { s with
      eng := s.eng.selectMicroStep p.toNat
      turns := .take .engine :: s.turns }

end Sys2Proof.Machine
end

