-- ==== Sys2Proof/Machine/Step.lean ====
section
/-! DEFINITION. One step of the machine (00_scope.md R9, R10), and the placing of an opcode-table word
where the next step reads its instruction. -/

namespace Sys2Proof.Machine

/-- One step: the reset event, a stop in a combination no rule produces, waiting, the refusal of an
illegal word, or the instruction that is next. Each uses up one entry of the order of steps. -/
def step (s : State) : Host.Outcome State Fault Refusal :=
  match s.nextEvent with
  | .reset => .next s.passTurn.resetEvent
  | .stuck => .fault .malformedState
  | .wait => .next s.passTurn
  | .illegal => .next s.passTurn.refuseIllegal
  | .run i => exec i s.passTurn

/-- `s` with the opcode-table word `w` of `nbits` bits where the next step reads its instruction: a command
word presented on the port, a micro-step's code in PHASE (DESIGN CHOICE, unsafe: log entry 12). -/
def State.withFetchWord (s : State) (nbits w : Nat) : State :=
  match tableCode nbits w with
  | some c => s.withCode c
  | none => s

end Sys2Proof.Machine
end

