-- ==== Sys2Proof/Machine/Assembler.lean ====
section
/-! DEFINITION. The text form of command sequences and its pseudo-commands (30_encoding.md R93, R94): from the
characters of a program to the command words the host presents. Spacing and the like, which the spec
leaves open, are log entry 16 (DESIGN CHOICE, safe). -/

namespace Sys2Proof.Machine

/-- One line of a program, read (30_encoding.md R93, R94). Numbers are not yet checked against their range. -/
inductive AsmLine where
  | empty
  | init
  | data (n : Nat)
  | final
  | rddig (n : Nat)
  | rdhex (n : Nat)
  | rdstat
  | word (n : Nat)
  | msg (text : List Byte)
  | hash (text : List Byte)
  | digest
  | hexdigest
  | rep (n b : Nat)
deriving DecidableEq, Repr

/-- The word of a well-formed command; a micro-step has none. -/
def commandWord (i : Instr) : Option CmdWord :=
  if i.wellFormed then
    match encode i with
    | .cmd c => some c
    | .uop _ => none
  else none

/-- The word of a command with a byte operand given as a number; out of range it is an assembly error (R93). -/
def operandWord (i : Byte → Instr) (n : Nat) : Option CmdWord :=
  if n < 256 then commandWord (i (BitVec.ofNat 8 n)) else none

/-- One `DATA` word per byte, in order (R94, `MSG`). -/
def dataWords (m : List Byte) : List CmdWord := m.map fun b => cmdWord 2 0 b

/-- `HASH`: `INIT`, then the bytes, then `FINAL` (R94). -/
def hashWords (m : List Byte) : List CmdWord := cmdWord 1 0 0 :: (dataWords m ++ [cmdWord 3 0 0])

/-- `DIGEST`: `RDDIG 0` to `RDDIG 31` in order (R94). -/
def digestWords : List CmdWord := (List.range 32).map fun i => cmdWord 4 0 (BitVec.ofNat 8 i)

/-- `HEXDIGEST`: `RDHEX 0` to `RDHEX 63` in order (R94). -/
def hexDigestWords : List CmdWord := (List.range 64).map fun j => cmdWord 5 0 (BitVec.ofNat 8 j)

/-- A word that a line names, as the line's only word. -/
def oneWord (c : Option CmdWord) : Option (List CmdWord) := c.map fun w => [w]

/-- The words of a line; `none` is an assembly error. -/
def AsmLine.words : AsmLine → Option (List CmdWord)
  | .empty => some []
  | .init => oneWord (commandWord .init)
  | .data n => oneWord (operandWord .data n)
  | .final => oneWord (commandWord .final)
  | .rddig n => oneWord (operandWord .rddig n)
  | .rdhex n => oneWord (operandWord .rdhex n)
  | .rdstat => oneWord (commandWord .rdstat)
  | .word n => if n < 65536 then some [BitVec.ofNat 16 n] else none
  | .msg text => some (dataWords text)
  | .hash text => some (hashWords text)
  | .digest => some digestWords
  | .hexdigest => some hexDigestWords
  | .rep n b => (operandWord .data b).map fun w => List.replicate n w

/-- A token of a line. -/
inductive Token where
  | name (s : List Char)
  | text (bs : List Byte)
  | char (code : Nat)
  | comma
deriving DecidableEq, Repr

/-- A printable ASCII character (R93). -/
def isPrintable (c : Char) : Bool := 0x20 ≤ c.toNat && c.toNat ≤ 0x7e

/-- The value of a hexadecimal digit, either case. -/
def hexValue (c : Char) : Option Nat :=
  let n := c.toNat
  if 0x30 ≤ n && n ≤ 0x39 then some (n - 0x30)
  else if 0x61 ≤ n && n ≤ 0x66 then some (n - 0x57)
  else if 0x41 ≤ n && n ≤ 0x46 then some (n - 0x37)
  else none

/-- The value of digits in a base, after `acc`. -/
def digitsValue (base : Nat) : Nat → List Char → Option Nat
  | acc, [] => some acc
  | acc, c :: cs =>
    match hexValue c with
    | some d => if d < base then digitsValue base (acc * base + d) cs else none
    | none => none

/-- A number: decimal, or hexadecimal with `0x` (R93). -/
def numberValue : List Char → Option Nat
  | '0' :: 'x' :: c :: cs => digitsValue 16 0 (c :: cs)
  | c :: cs => digitsValue 10 0 (c :: cs)
  | [] => none

/-- The bytes of a text up to its closing quote, with `\xNN`, `\\` and `\"` (R94), and what follows. -/
def scanText : List Char → Option (List Byte × List Char)
  | [] => none
  | '"' :: rest => some ([], rest)
  | '\\' :: 'x' :: a :: b :: rest =>
    match hexValue a, hexValue b, scanText rest with
    | some x, some y, some (bs, r) => some (BitVec.ofNat 8 (16 * x + y) :: bs, r)
    | _, _, _ => none
  | '\\' :: c :: rest =>
    if c = '\\' ∨ c = '"' then (scanText rest).map fun p => (BitVec.ofNat 8 c.toNat :: p.1, p.2) else none
  | c :: rest =>
    if isPrintable c && c != '\\' then (scanText rest).map fun p => (BitVec.ofNat 8 c.toNat :: p.1, p.2)
    else none

/-- A character of a mnemonic or a number. -/
def isNameChar (c : Char) : Bool := c.isAlphanum || c = '.'

/-- The longest run of name characters, and what follows. -/
def scanName : List Char → List Char × List Char
  | [] => ([], [])
  | c :: cs => if isNameChar c then (c :: (scanName cs).1, (scanName cs).2) else ([], c :: cs)

/-- The tokens of a line, with fuel for its length; `;` or `->` starts a comment (R93). -/
def tokens : Nat → List Char → Option (List Token)
  | _, [] => some []
  | 0, _ :: _ => none
  | _ + 1, ';' :: _ => some []
  | _ + 1, '-' :: '>' :: _ => some []
  | n + 1, ',' :: rest => (tokens n rest).map fun ts => .comma :: ts
  | n + 1, '"' :: rest =>
    match scanText rest with
    | some (bs, r) => (tokens n r).map fun ts => .text bs :: ts
    | none => none
  | n + 1, '\'' :: c :: '\'' :: rest =>
    if isPrintable c then (tokens n rest).map fun ts => .char c.toNat :: ts else none
  | n + 1, c :: rest =>
    if c.isWhitespace then tokens n rest
    else if isNameChar c then
      (tokens n (scanName (c :: rest)).2).map fun ts => .name (scanName (c :: rest)).1 :: ts
    else none

/-- A number operand, or one character meaning its code (R93). -/
def operandValue : Token → Option Nat
  | .name s => numberValue s
  | .char n => some n
  | .text _ => none
  | .comma => none

/-- The line with a mnemonic, upper case (R93), and its operand tokens. -/
def lineOf (mnemonic : List Char) (args : List Token) : Option AsmLine :=
  match mnemonic, args with
  | ['I', 'N', 'I', 'T'], [] => some .init
  | ['D', 'A', 'T', 'A'], [a] => (operandValue a).map .data
  | ['F', 'I', 'N', 'A', 'L'], [] => some .final
  | ['R', 'D', 'D', 'I', 'G'], [.name s] => (numberValue s).map .rddig
  | ['R', 'D', 'H', 'E', 'X'], [.name s] => (numberValue s).map .rdhex
  | ['R', 'D', 'S', 'T', 'A', 'T'], [] => some .rdstat
  | ['.', 'w', 'o', 'r', 'd'], [.name s] => (numberValue s).map .word
  | ['M', 'S', 'G'], [.text bs] => some (.msg bs)
  | ['H', 'A', 'S', 'H'], [.text bs] => some (.hash bs)
  | ['D', 'I', 'G', 'E', 'S', 'T'], [] => some .digest
  | ['H', 'E', 'X', 'D', 'I', 'G', 'E', 'S', 'T'], [] => some .hexdigest
  | ['R', 'E', 'P'], [.name s, .comma, b] =>
    match numberValue s, operandValue b with
    | some n, some v => some (.rep n v)
    | _, _ => none
  | _, _ => none

/-- Read one line: at most one command and an optional comment (R93). -/
def readLine (cs : List Char) : Option AsmLine :=
  match tokens cs.length cs with
  | some [] => some .empty
  | some (.name s :: args) => lineOf s args
  | some _ => none
  | none => none

/-- The words of a program given as its lines; `none` is an assembly error (R93). -/
def assemble : List (List Char) → Option (List CmdWord)
  | [] => some []
  | l :: ls =>
    match (readLine l).bind AsmLine.words, assemble ls with
    | some ws, some rest => some (ws ++ rest)
    | _, _ => none

end Sys2Proof.Machine
end

