-- ==== Sys2Proof/Safety.lean ====
section
/-! DEFINITION. The terms in which claims are made: the invariants of the engine (10_state.md R38, R39), the
states that runs reach, safe steps, the end of a run (70_reset_and_hazards.md R260), and the content of BUF and
W as lists. -/

namespace Sys2Proof.Machine

/-- Every index below `n` holds a value. -/
def Memory.writtenBelow {α : Type} (m : Memory α) (n : Nat) : Prop :=
  ∀ j, j < n → (m.get j).isSome = true

/-- The elements 0, 1, … of `m` hold the values of `vs`, in order. -/
def Memory.holds {α : Type} (m : Memory α) (vs : List α) : Prop :=
  ∀ j, j < vs.length → m.get j = vs[j]?

/-- What holds of the engine in every state that a run reaches: the clauses of 10_state.md R39 (a), (b),
(c), (e), the canonical form of the two memories, and that everything a later step reads is written
(R38). -/
structure Engine.Inv (e : Engine) : Prop where
  /-- R39 (a). -/
  lenBytes : e.len.toNat % 8 = 0
  /-- R39 (b). -/
  indexExpand : e.phase = .expand → 16 ≤ e.t.val
  /-- R39 (b). -/
  indexZero : e.phase ≠ .expand → e.phase ≠ .round → e.t = 0
  /-- R39 (c). -/
  finPad : e.phase = .pad → e.fin = .pend1 ∨ e.fin = .pend2
  /-- R39 (c). -/
  finQuiet : e.phase.busy = false → e.fin = .none
  /-- R39 (c). -/
  finBlock : e.phase.busy = true → e.phase ≠ .pad → e.fin ≠ .pend1
  /-- R39 (e). -/
  fillBlock : e.phase.busy = true → e.phase ≠ .pad → e.fin = .none → e.fill = 0
  /-- R50: the canonical form of BUF. -/
  bufForm : e.buf.wf
  /-- R50: the canonical form of W. -/
  wForm : e.w.wf
  /-- R29, R38: the bytes of the partial block are written. -/
  bufPartial : e.phase = .idle ∨ (e.phase = .pad ∧ e.fin = .pend1) → e.buf.writtenBelow e.fill
  /-- R38: "every path into LOAD has written all 64 bytes". -/
  bufFull : e.phase = .load → e.buf.writtenBelow 64
  /-- R38: EXPAND reads only indices below T. -/
  wPartial : e.phase = .expand → e.w.writtenBelow e.t.val
  /-- R38: ROUND runs after EXPAND has finished. -/
  wFull : e.phase = .round → e.w.writtenBelow 64
  /-- R38, R163: V is written by LOAD before ROUND reads it, and holds H until the first round. -/
  vSeeded : e.phase = .expand ∨ (e.phase = .round ∧ e.t = 0) → e.v = e.h

/-- The states of the runs from reset: any sequence of words presented, any order of steps (70_reset_and_hazards.md R260). -/
inductive Reachable : State → Prop where
  | start (cmds : List CmdWord) (turns : List Turn) (drawn : Nat) :
      Reachable { State.reset with cmds := cmds, turns := turns, drawn := drawn }
  | next (s s' : State) : Reachable s → step s = .next s' → Reachable s'

/-- The step from `s` goes on: it neither faults nor refuses. -/
def SafeStep (s : State) : Prop := ∃ s', step s = .next s'

/-- The run is over: every word is answered and PHASE is not busy (70_reset_and_hazards.md R260). -/
def State.over (s : State) : Prop := s.cmds = [] ∧ s.eng.phase.busy = false

/-- No reset event is scheduled. -/
def State.noReset (s : State) : Prop := Turn.reset ∉ s.turns

/-- No word that could be accepted now is presented: there is none, or it is held (30_encoding.md R92). -/
def State.hostWaits (s : State) : Prop := s.hostEnabled = false

/-- `t` is `s` after its presented word was answered with `r`: the response is out, the word has left the
port, and the order of steps is untouched. It says nothing of the engine. -/
def State.AnsweredWith (s t : State) (r : RespWord) : Prop :=
  t.cmds = s.cmds.tail ∧ t.resps = s.resps ++ [r] ∧ t.turns = s.turns ∧ t.drawn = s.drawn

/-- `t` differs from `s` in the engine at most. -/
def State.SamePort (s t : State) : Prop :=
  t.cmds = s.cmds ∧ t.resps = s.resps ∧ t.turns = s.turns ∧ t.drawn = s.drawn

/-- The blocks of a message of `n` bytes, `N = floor((n + 8) / 64) + 1` (41_padding.md R143). -/
def blockCount (n : Nat) : Nat := (n + 8) / 64 + 1

/-- The PAD steps of a message of `n` bytes (70_reset_and_hazards.md R262). -/
def padSteps (n : Nat) : Nat := if n % 64 ≤ 55 then 1 else 2

/-- A word that can change the engine: legal and not RDSTAT (30_encoding.md R90). -/
def effective (c : CmdWord) : Bool := legal c && !isStatusRead c

/-- The micro-steps from a busy phase to the next phase that is not busy, at most (70_reset_and_hazards.md R261). -/
def Engine.stepsLeft (e : Engine) : Nat :=
  match e.phase with
  | .idle => 0
  | .pad => if e.fin = .pend1 ∧ 56 ≤ e.fill then 230 else 115
  | .load => 114 + (if e.fin = .pend2 then 115 else 0)
  | .expand => 129 - e.t.val + (if e.fin = .pend2 then 115 else 0)
  | .round => 65 - e.t.val + (if e.fin = .pend2 then 115 else 0)
  | .update => 1 + (if e.fin = .pend2 then 115 else 0)
  | .done => 0
  | .error => 0

end Sys2Proof.Machine
end

