-- ==== Sys2Proof/Certificates/Slice0/Obligations.lean ====
section
/-! DEFINITION. The statements for the provers, each with the rule of spec/ it formalises. Response words are
written out as literals (30_encoding.md R86): OK `0x00dd`, NAK_ILLEGAL `0x1000`, NAK_STATE `0x2000`, ERR_TOOLARGE
`0x3000`. An equation `exec i s = .next t` says that the instruction completes and what it leaves unchanged. -/

open Sys2Proof Sys2Proof.Machine

/-! ## Word arithmetic (40_word_arithmetic.md) -/

/-- R110. -/
def Obligations.RotateRightMovesBits : Prop :=
  ∀ (x : Word) (n : Fin 32),
    (∀ i, i < 32 → (rotr x n).getLsbD i = x.getLsbD ((i + n.val) % 32)) ∧
    (n ≠ 0 → (rotr x n).toNat = ((x.toNat >>> n.val) ||| (x.toNat <<< (32 - n.val))) % 2 ^ 32) ∧
    rotr x 0 = x ∧ rotr 0 n = 0 ∧ rotr 0xffffffff n = 0xffffffff ∧
    (n ≠ 0 → rotr (rotr x n) (Fin.ofNat 32 (32 - n.val)) = x) ∧
    (∀ m : Fin 32, rotr (rotr x m) n = rotr x (Fin.ofNat 32 ((m.val + n.val) % 32))) ∧
    rotr 0x12345678 4 = 0x81234567 ∧ rotr 0x00000001 1 = 0x80000000

/-- R111. -/
def Obligations.ShiftRightFillsZero : Prop :=
  ∀ (x : Word) (n : Fin 32),
    (shr x n).toNat = x.toNat / 2 ^ n.val ∧
    (∀ i, i < 32 →
      (shr x n).getLsbD i = if i + n.val ≤ 31 then x.getLsbD (i + n.val) else false) ∧
    shr x 0 = x ∧ shr 0x80000000 31 = 0x00000001 ∧
    shr 0x12345678 4 = 0x01234567 ∧ shr 0xffffffff 10 = 0x003fffff

/-- R112, R113, R114, R115. -/
def Obligations.BitwiseOperations : Prop :=
  (∀ (x y : Word) (i : Nat), i < 32 →
    (wordAnd x y).getLsbD i = (x.getLsbD i && y.getLsbD i) ∧
    (wordOr x y).getLsbD i = (x.getLsbD i || y.getLsbD i) ∧
    (wordXor x y).getLsbD i = (x.getLsbD i != y.getLsbD i) ∧
    (wordNot x).getLsbD i = !x.getLsbD i) ∧
  (∀ x y z : Word,
    wordAnd x 0 = 0 ∧ wordAnd x 0xffffffff = x ∧ wordAnd x x = x ∧
    wordOr x 0 = x ∧ wordOr x 0xffffffff = 0xffffffff ∧
    wordXor x 0 = x ∧ wordXor x x = 0 ∧ wordXor x 0xffffffff = wordNot x ∧
    wordXor x y = wordXor y x ∧ wordXor (wordXor x y) z = wordXor x (wordXor y z) ∧
    (wordNot x).toNat = 2 ^ 32 - 1 - x.toNat ∧ wordNot (wordNot x) = x) ∧
  wordNot 0 = 0xffffffff ∧ wordNot 0xffffffff = 0 ∧
  wordAnd 0x6a09e667 0xbb67ae85 = 0x2a01a605 ∧ wordOr 0x6a09e667 0xbb67ae85 = 0xfb6feee7 ∧
  wordXor 0x6a09e667 0xbb67ae85 = 0xd16e48e2 ∧ wordNot 0x6a09e667 = 0x95f61998

/-- R116. -/
def Obligations.AdditionWraps : Prop :=
  (∀ x y z : Word,
    (addMod x y).toNat = (x.toNat + y.toNat) % 2 ^ 32 ∧ addMod x 0 = x ∧
    addMod x y = addMod y x ∧ addMod (addMod x y) z = addMod x (addMod y z)) ∧
  addMod 0xffffffff 1 = 0 ∧ addMod 0xffffffff 0xffffffff = 0xfffffffe ∧
  addMod 0x80000000 0x80000000 = 0 ∧ addMod 0x6a09e667 0xbb67ae85 = 0x257194ec

/-- R117, R118, R119, R120: each function bit by bit, and the rules' corner cases and examples. -/
def Obligations.SigmaFunctions : Prop :=
  (∀ (x : Word) (i : Nat), i < 32 →
    (smallSigma0 x).getLsbD i =
      (x.getLsbD ((i + 7) % 32) ^^ x.getLsbD ((i + 18) % 32) ^^ x.getLsbD (i + 3)) ∧
    (smallSigma1 x).getLsbD i =
      (x.getLsbD ((i + 17) % 32) ^^ x.getLsbD ((i + 19) % 32) ^^ x.getLsbD (i + 10)) ∧
    (bigSigma0 x).getLsbD i =
      (x.getLsbD ((i + 2) % 32) ^^ x.getLsbD ((i + 13) % 32) ^^ x.getLsbD ((i + 22) % 32)) ∧
    (bigSigma1 x).getLsbD i =
      (x.getLsbD ((i + 6) % 32) ^^ x.getLsbD ((i + 11) % 32) ^^ x.getLsbD ((i + 25) % 32))) ∧
  [0, 0xffffffff, 1, 0x80000000, 0x61626380].map smallSigma0 =
    [0, 0x1fffffff, 0x02004000, 0x11002000, 0x940e90ef] ∧
  [0, 0xffffffff, 1, 0x80000000, 0x00000018].map smallSigma1 =
    [0, 0x003fffff, 0x0000a000, 0x00205000, 0x000f0000] ∧
  [0, 0xffffffff, 1, 0x80000000, 0x6a09e667].map bigSigma0 =
    [0, 0xffffffff, 0x40080400, 0x20040200, 0xce20b47e] ∧
  [0, 0xffffffff, 1, 0x80000000, 0x510e527f].map bigSigma1 =
    [0, 0xffffffff, 0x04200080, 0x02100040, 0x3587272b]

/-- R121, R122. The clause that reads `ch` with `wordOr` is R121's own derived remark. -/
def Obligations.ChooseAndMajority : Prop :=
  (∀ (x y z : Word) (i : Nat), i < 32 →
    (ch x y z).getLsbD i = (if x.getLsbD i then y.getLsbD i else z.getLsbD i) ∧
    (maj x y z).getLsbD i =
      decide (2 ≤ (x.getLsbD i).toNat + (y.getLsbD i).toNat + (z.getLsbD i).toNat)) ∧
  (∀ x y z : Word,
    ch 0 y z = z ∧ ch 0xffffffff y z = y ∧ ch x y y = y ∧
    ch x y z = wordOr (wordAnd x y) (wordAnd (wordNot x) z) ∧
    maj x y z = maj y x z ∧ maj x y z = maj x z y ∧ maj x x z = x ∧
    maj 0 y z = wordAnd y z ∧ maj 0xffffffff y z = wordOr y z) ∧
  ch 0x510e527f 0x9b05688c 0x1f83d9ab = 0x1f85c98c ∧
  maj 0x6a09e667 0xbb67ae85 0x3c6ef372 = 0x3a6fe667

/-- 10_state.md section 3 (values given there from general knowledge, log entry 13): `K[t]` is the first 32 bits
of the fractional part of the cube root of the t-th prime, `IV[i]` that of the square root. With
`a` the integer part, `a * 2^32 + K[t]` is the integer cube root of `p * 2^96`. -/
def Obligations.ConstantsAreRootsOfPrimes : Prop :=
  let primes := (List.range 312).filter fun n =>
    decide (2 ≤ n) && (List.range n).all fun d => decide (d < 2) || n % d != 0
  primes.length = 64 ∧
  (∀ t, t < 64 → ∃ a, a < 7 ∧
    (a * 2 ^ 32 + (kAt t).toNat) ^ 3 ≤ primes.getD t 0 * 2 ^ 96 ∧
    primes.getD t 0 * 2 ^ 96 < (a * 2 ^ 32 + (kAt t).toNat + 1) ^ 3) ∧
  (∀ i : Fin 8, ∃ a, a < 5 ∧
    (a * 2 ^ 32 + (iv.get i).toNat) ^ 2 ≤ primes.getD i.val 0 * 2 ^ 64 ∧
    primes.getD i.val 0 * 2 ^ 64 < (a * 2 ^ 32 + (iv.get i).toNat + 1) ^ 2)

/-! ## Encoding (30_encoding.md) -/

/-- R83, with its count: 355 words are legal. -/
def Obligations.LegalWordsAreTheTable : Prop :=
  (∀ c : CmdWord, legal c = true ↔
    (c &&& 0xffff = 0x1000 ∨ c &&& 0xff00 = 0x2000 ∨ c &&& 0xffff = 0x3000 ∨
     c &&& 0xffe0 = 0x4000 ∨ c &&& 0xffc0 = 0x5000 ∨ c &&& 0xffff = 0x6000)) ∧
  ((List.range 4096).filter fun n =>
    legal (cmdWord (BitVec.ofNat 4 (n / 256)) 0 (BitVec.ofNat 8 (n % 256)))).length = 355 ∧
  (∀ op rsv arg, rsv ≠ 0 → legal (cmdWord op rsv arg) = false)

/-- Derived from R80 to R82 and R88: no bit of an encoding is dropped. -/
def Obligations.DecodeOfEncode : Prop :=
  ∀ i : Instr, i.wellFormed = true → decode (encode i) = .ok i

/-- Derived from R81, R83, R88: each code has one meaning, and that meaning is well-formed. -/
def Obligations.EncodeOfDecode : Prop :=
  ∀ (c : Code) (i : Instr), decode c = .ok i → encode i = c ∧ i.wellFormed = true

/-- R88: which micro-step each PHASE code selects. -/
def Obligations.PhaseSelectsMicroStep : Prop :=
  decodeMicroStep 0b000 = .error .noMicroStep ∧ decodeMicroStep 0b001 = .ok .pad ∧
  decodeMicroStep 0b010 = .ok .load ∧ decodeMicroStep 0b011 = .ok .expand ∧
  decodeMicroStep 0b100 = .ok .round ∧ decodeMicroStep 0b101 = .ok .update ∧
  decodeMicroStep 0b110 = .error .noMicroStep ∧ decodeMicroStep 0b111 = .error .noMicroStep ∧
  [Phase.idle, .pad, .load, .expand, .round, .update, .done, .error].map Phase.code =
    [0b000, 0b001, 0b010, 0b011, 0b100, 0b101, 0b110, 0b111]

/-- The worked encodings of 30_encoding.md section 5 and boundary pairs of 95_test_vectors.md section 7 (derived there). -/
def Obligations.WorkedEncodingsDecode : Prop :=
  decodeCommand 0x1000 = .ok .init ∧ decodeCommand 0x2061 = .ok (.data 0x61) ∧
  decodeCommand 0x20ff = .ok (.data 0xff) ∧ decodeCommand 0x3000 = .ok .final ∧
  decodeCommand 0x4000 = .ok (.rddig 0) ∧ decodeCommand 0x401f = .ok (.rddig 31) ∧
  decodeCommand 0x503f = .ok (.rdhex 63) ∧ decodeCommand 0x6000 = .ok .rdstat ∧
  [0x0000, 0x1001, 0x2161, 0x4020, 0x5040, 0x6001, 0x7000, 0xffff].map legal =
    [false, false, false, false, false, false, false, false]

/-- The model's own placing of an opcode-table word (log entry 12): the next step from a state so
prepared runs exactly the instruction the decoder reads, whatever the state was. -/
def Obligations.FetchWordRunsNext : Prop :=
  ∀ (s : State) (nbits w : Nat) (i : Instr), decodeTableWord nbits w = some i →
    step (s.withFetchWord nbits w) = exec i (s.withFetchWord nbits w).passTurn ∧
    (s.withFetchWord nbits w).passTurn.turns = s.turns

/-! ## One step (00_scope.md R10, 30_encoding.md R90) -/

/-- R90 with R91's permissions, and 60_exceptions.md R223: what becomes of the presented word when the host
takes its turn, test by test; a held word leaves the step to the selected micro-step. Each clause
excludes the ones before it. -/
def Obligations.CommandStepTestsInOrder : Prop :=
  ∀ (s : State) (c : CmdWord) (cs : List CmdWord) (ts : List Turn),
    s.cmds = c :: cs → s.turns = .take .host :: ts → s.eng.malformed = false →
    (legal c = false →
      step s = .next { s with cmds := cs, turns := ts, resps := s.resps ++ [0x1000] }) ∧
    (c = 0x6000 →
      step s = .next { s with
        cmds := cs, turns := ts, resps := s.resps ++ [(status s.eng.phase).setWidth 16] }) ∧
    (legal c = true → c ≠ 0x6000 → s.eng.phase.busy = true →
      ∃ i, decodeMicroStep s.eng.phase.code = .ok i ∧ step s = exec i { s with turns := ts }) ∧
    (∀ i, decodeCommand c = .ok i → c ≠ 0x6000 → s.eng.phase.busy = false →
      ((((∃ b, i = .data b) ∨ i = .final) ∧ s.eng.phase ≠ .idle) ∨
        (((∃ n, i = .rddig n) ∨ ∃ n, i = .rdhex n) ∧ s.eng.phase ≠ .done) →
        step s = .next { s with cmds := cs, turns := ts, resps := s.resps ++ [0x2000] }) ∧
      (i = .init ∨ (((∃ b, i = .data b) ∨ i = .final) ∧ s.eng.phase = .idle) ∨
        (((∃ n, i = .rddig n) ∨ ∃ n, i = .rdhex n) ∧ s.eng.phase = .done) →
        step s = exec i { s with turns := ts }))

/-- A step runs the decoded instruction, with an empty order of steps: derived from 00_scope.md
section 5 and 30_encoding.md sections 3 and 4. Without contention the step is `exec` of the presented
command, or of the micro-step PHASE selects, at that very state. -/
def Obligations.StepRunsDecodedInstruction : Prop :=
  ∀ (s : State) (i : Instr), s.turns = [] → s.eng.malformed = false →
    (∀ c cs, s.cmds = c :: cs → decodeCommand c = .ok i → s.eng.phase.busy = false →
      step s = exec i s) ∧
    (decodeMicroStep s.eng.phase.code = .ok i → s.hostWaits → step s = exec i s) ∧
    (∀ ts, decodeMicroStep s.eng.phase.code = .ok i →
      step { s with turns := .take .engine :: ts } = exec i { s with turns := ts })

/-- Derived from 60_exceptions.md section 7 ("keeps its state until the next command or reset") and log
entry 7: with no step enabled the machine waits. -/
def Obligations.WaitsWhenNothingEnabled : Prop :=
  ∀ s : State, s.over → s.eng.malformed = false → s.resetDue = false →
    step s = .next { s with turns := s.turns.tail }

/-- Derived from 30_encoding.md section 2, over every step: one response per accepted word, none otherwise; code 0 to 3, bits
11:8 zero, and zero data beside code OK. -/
def Obligations.OneResponsePerAcceptedWord : Prop :=
  ∀ s s' : State, step s = .next s' →
    (s'.cmds = s.cmds ∧ s'.resps = s.resps) ∨
    (∃ c r, s.cmds = c :: s'.cmds ∧ s'.resps = s.resps ++ [r] ∧
      r.extractLsb' 8 4 = 0 ∧ (r.extractLsb' 12 4).toNat ≤ 3 ∧
      (r.extractLsb' 12 4 ≠ 0 → r.extractLsb' 0 8 = 0) ∧
      (r.extractLsb' 0 8 ≠ 0 → ∃ i, decodeCommand c = .ok i ∧
        (i = .rdstat ∨ (∃ n, i = .rddig n) ∨ ∃ n, i = .rdhex n)))

/-! ## Reset (10_state.md R37, 70_reset_and_hazards.md R250) -/

/-- Derived from 10_state.md section 7 (the table of reset values) and 44_digest.md section 3 (INIT). That V is
zero is the model's own choice (log entry 18, DESIGN CHOICE), where the spec gives no value. -/
def Obligations.ResetValues : Prop :=
  (∀ i, State.reset.eng.h.get i = iv.get i) ∧ State.reset.eng.len = 0 ∧
  State.reset.eng.phase = .idle ∧ State.reset.eng.t = 0 ∧ State.reset.eng.fin = .none ∧
  (∀ i, State.reset.eng.v.get i = 0) ∧ (∀ j, State.reset.eng.w.get j = none) ∧
  (∀ j, State.reset.eng.buf.get j = none) ∧ status State.reset.eng.phase = 0 ∧
  (∀ e : Engine, e.startMessage.h = State.reset.eng.h ∧ e.startMessage.len = State.reset.eng.len ∧
    e.startMessage.phase = State.reset.eng.phase ∧ e.startMessage.t = State.reset.eng.t ∧
    e.startMessage.fin = State.reset.eng.fin ∧
    e.startMessage.v = e.v ∧ e.startMessage.w = e.w ∧ e.startMessage.buf = e.buf)

/-- Derived from 70_reset_and_hazards.md section 1: in any state, also one with no step, a reset puts every piece
of the engine's state at its reset value; a word at the port stays presented. That V is zero is the model's own
choice (log entry 18, DESIGN CHOICE), where the spec gives no value. -/
def Obligations.ResetInAnyState : Prop :=
  ∀ (s : State) (ts : List Turn), s.turns = .reset :: ts →
    step s = .next { s with
      eng := {
        h := ⟨0x6a09e667, 0xbb67ae85, 0x3c6ef372, 0xa54ff53a,
              0x510e527f, 0x9b05688c, 0x1f83d9ab, 0x5be0cd19⟩
        v := ⟨0, 0, 0, 0, 0, 0, 0, 0⟩
        w := [], buf := [], len := 0, phase := .idle, t := 0, fin := .none }
      turns := ts }

/-- 70_reset_and_hazards.md R251: a word held when the reset comes is processed against the reset state. -/
def Obligations.HeldWordSurvivesReset : Prop :=
  ∀ (s : State) (c : CmdWord) (cs : List CmdWord),
    s.cmds = c :: cs → s.turns = [.reset] → held c s.eng.phase = true →
    (∀ b, c = cmdWord 2 0 b → ∃ t, Host.Core.run core 2 s = .next t ∧ t.cmds = cs ∧
      t.resps = s.resps ++ [0x0000] ∧ t.eng = { State.reset.eng with buf := t.eng.buf, len := 8 } ∧
      t.eng.buf.get 0 = some b ∧ ∀ j, j ≠ 0 → t.eng.buf.get j = none) ∧
    (c = 0x3000 → Host.Core.run core 2 s = .next
      { s with
        eng := { State.reset.eng with phase := .pad, fin := .pend1 }
        cmds := cs, turns := [], resps := s.resps ++ [0x0000] }) ∧
    (∀ n, c = cmdWord 4 0 n ∨ c = cmdWord 5 0 n → Host.Core.run core 2 s = .next
      { s with eng := State.reset.eng, cmds := cs, turns := [], resps := s.resps ++ [0x2000] }) ∧
    (c = 0x1000 → Host.Core.run core 2 s = .next
      { s with eng := State.reset.eng, cmds := cs, turns := [], resps := s.resps ++ [0x0000] })

/-! ## Commands -/

/-- 44_digest.md R198. V, W and BUF are kept. -/
def Obligations.InitStartsMessage : Prop :=
  ∀ s : State,
    (s.eng.phase.busy = true → exec .init s = .next s) ∧
    (s.eng.phase.busy = false → ∃ t, exec .init s = .next t ∧ s.AnsweredWith t 0x0000 ∧
      t.eng = { s.eng with
        h := ⟨0x6a09e667, 0xbb67ae85, 0x3c6ef372, 0xa54ff53a,
              0x510e527f, 0x9b05688c, 0x1f83d9ab, 0x5be0cd19⟩
        len := 0, t := 0, fin := .none, phase := .idle } ∧
      status t.eng.phase = 0)

/-- 41_padding.md R144: all four outcomes, and which byte of BUF is written. -/
def Obligations.DataAppendsByte : Prop :=
  ∀ (s : State) (b : Byte),
    (s.eng.phase.busy = true → exec (.data b) s = .next s) ∧
    (s.eng.phase = .done ∨ s.eng.phase = .error → exec (.data b) s =
      .next { s with cmds := s.cmds.tail, resps := s.resps ++ [0x2000] }) ∧
    (s.eng.phase = .idle → s.eng.len = 0xfffffffffffffff8 → exec (.data b) s =
      .next { s with
        eng := { s.eng with phase := .error }
        cmds := s.cmds.tail, resps := s.resps ++ [0x3000] }) ∧
    (s.eng.phase = .idle → s.eng.len ≠ 0xfffffffffffffff8 →
      ∃ t, exec (.data b) s = .next t ∧ s.AnsweredWith t 0x0000 ∧
        t.eng.buf.get (s.eng.len.extractLsb' 3 6).toNat = some b ∧
        (∀ j, j ≠ (s.eng.len.extractLsb' 3 6).toNat → t.eng.buf.get j = s.eng.buf.get j) ∧
        t.eng.len = s.eng.len + 8 ∧
        t.eng.phase = (if s.eng.len.extractLsb' 3 6 = 63 then .load else .idle) ∧
        t.eng.h = s.eng.h ∧ t.eng.v = s.eng.v ∧ t.eng.w = s.eng.w ∧ t.eng.t = s.eng.t ∧
        t.eng.fin = s.eng.fin)

/-- 60_exceptions.md R222, over every step: the exception is raised by DATA alone, in IDLE, exactly at the
limit, it changes PHASE and nothing else of the engine, and in phase ERROR the four commands of the
message and the digest are refused. -/
def Obligations.InputTooLargeOnlyFromData : Prop :=
  (∀ s s' : State, step s = .next s' → s.eng.phase ≠ .error → s'.eng.phase = .error →
    s.eng.phase = .idle ∧ s.eng.len = 0xfffffffffffffff8 ∧
    (∃ b cs, s.cmds = cmdWord 2 0 b :: cs ∧ s'.cmds = cs) ∧
    s'.eng = { s.eng with phase := .error } ∧ s'.resps = s.resps ++ [0x3000]) ∧
  (∀ (s : State) (b : Byte), s.eng.phase = .idle → s.eng.len = 0xfffffffffffffff8 →
    exec (.data b) s = .next { s with
      eng := { s.eng with phase := .error }
      cmds := s.cmds.tail, resps := s.resps ++ [0x3000] }) ∧
  (∀ (s : State) (i : Instr), s.eng.phase = .error →
    (∃ b, i = .data b) ∨ i = .final ∨ (∃ n, i = .rddig n ∧ n.toNat < 32) ∨
      (∃ n, i = .rdhex n ∧ n.toNat < 64) →
    exec i s = .next { s with cmds := s.cmds.tail, resps := s.resps ++ [0x2000] })

/-- 41_padding.md R145. -/
def Obligations.FinalOpensPadding : Prop :=
  ∀ s : State,
    (s.eng.phase.busy = true → exec .final s = .next s) ∧
    (s.eng.phase = .done ∨ s.eng.phase = .error → exec .final s =
      .next { s with cmds := s.cmds.tail, resps := s.resps ++ [0x2000] }) ∧
    (s.eng.phase = .idle → exec .final s =
      .next { s with
        eng := { s.eng with fin := .pend1, phase := .pad }
        cmds := s.cmds.tail, resps := s.resps ++ [0x0000] })

/-- 44_digest.md R199: no state changes; the byte is bits 31 - 8 (i mod 4) : 24 - 8 (i mod 4) of H[i div 4]. -/
def Obligations.ReadDigestByte : Prop :=
  ∀ (s : State) (i : Byte), i.toNat < 32 →
    (s.eng.phase.busy = true → exec (.rddig i) s = .next s) ∧
    (s.eng.phase = .idle ∨ s.eng.phase = .error → exec (.rddig i) s =
      .next { s with cmds := s.cmds.tail, resps := s.resps ++ [0x2000] }) ∧
    (s.eng.phase = .done → exec (.rddig i) s =
      .next { s with
        cmds := s.cmds.tail
        resps := s.resps ++ [(((s.eng.h.get (Fin.ofNat 8 (i.toNat / 4))) >>>
          (24 - 8 * (i.toNat % 4))).setWidth 8).setWidth 16] })

/-- 44_digest.md R200: no state changes; the character is `to_hex(serialize(H))[j]`, always one of 0x30 to 0x39
or 0x61 to 0x66. -/
def Obligations.ReadHexCharacter : Prop :=
  ∀ (s : State) (j : Byte), j.toNat < 64 →
    (s.eng.phase.busy = true → exec (.rdhex j) s = .next s) ∧
    (s.eng.phase = .idle ∨ s.eng.phase = .error → exec (.rdhex j) s =
      .next { s with cmds := s.cmds.tail, resps := s.resps ++ [0x2000] }) ∧
    (s.eng.phase = .done → ∃ x : Byte, (toHex (serialize s.eng.h))[j.toNat]? = some x ∧
      (0x30 ≤ x.toNat ∧ x.toNat ≤ 0x39 ∨ 0x61 ≤ x.toNat ∧ x.toNat ≤ 0x66) ∧
      exec (.rdhex j) s =
        .next { s with cmds := s.cmds.tail, resps := s.resps ++ [x.setWidth 16] })

/-- The model's reading of terms with no legal word (log entry 10), derived from 30_encoding.md section 1
(illegal encodings): an index out of range is answered NAK_ILLEGAL in every phase. -/
def Obligations.IndexOutOfRangeIsIllegal : Prop :=
  ∀ (s : State) (n : Byte),
    (32 ≤ n.toNat → exec (.rddig n) s =
      .next { s with cmds := s.cmds.tail, resps := s.resps ++ [0x1000] }) ∧
    (64 ≤ n.toNat → exec (.rdhex n) s =
      .next { s with cmds := s.cmds.tail, resps := s.resps ++ [0x1000] })

/-- 44_digest.md R201 and 10_state.md R33: in every phase, no state changes. -/
def Obligations.ReadStatusInEveryPhase : Prop :=
  ∀ s : State, exec .rdstat s =
    .next { s with
      cmds := s.cmds.tail
      resps := s.resps ++
        [match s.eng.phase with
         | .idle => 0x0000
         | .pad => 0x0001
         | .load => 0x0001
         | .expand => 0x0001
         | .round => 0x0001
         | .update => 0x0001
         | .done => 0x0002
         | .error => 0x0004] }

/-- 60_exceptions.md R224: a legal command in a non-busy phase that does not permit it (30_encoding.md R91)
is answered NAK_STATE and changes no state. -/
def Obligations.NotPermittedLeavesNoTrace : Prop :=
  ∀ (s : State) (i : Instr),
    ((s.eng.phase = .done ∨ s.eng.phase = .error) ∧ ((∃ b, i = .data b) ∨ i = .final)) ∨
    ((s.eng.phase = .idle ∨ s.eng.phase = .error) ∧
      ((∃ n, i = .rddig n ∧ n.toNat < 32) ∨ ∃ n, i = .rdhex n ∧ n.toNat < 64)) →
    ∃ t, exec i s = .next t ∧ t.eng = s.eng ∧ s.AnsweredWith t 0x2000

/-- Derived from 30_encoding.md section 4 (hold): while a word is held nothing answers it, and the step is
the micro-step that PHASE selects. -/
def Obligations.HeldWordStaysPresented : Prop :=
  ∀ (s s' : State) (c : CmdWord) (cs : List CmdWord),
    s.cmds = c :: cs → held c s.eng.phase = true → step s = .next s' →
    s'.cmds = s.cmds ∧ s'.resps = s.resps ∧
    (s.resetDue = false → ∃ i, decodeMicroStep s.eng.phase.code = .ok i ∧
      exec i s.passTurn = .next s')

/-! ## Micro-steps -/

/-- 41_padding.md section 2 (the PAD micro-step): the three cases, byte by byte. That FIN NONE or LAST is the
fault `malformedState` is the model's own choice (log entry 6, DEDUCED), where the spec says that a model may
give no step. -/
def Obligations.PadBuildsBlock : Prop :=
  ∀ s : State, s.eng.phase = .pad →
    let fill := (s.eng.len.extractLsb' 3 6).toNat
    (s.eng.fin = .pend1 → fill ≤ 55 → ∃ t, exec .pad s = .next t ∧ s.SamePort t ∧
      t.eng = { s.eng with buf := t.eng.buf, fin := .last, phase := .load } ∧
      (∀ j, j < fill → t.eng.buf.get j = s.eng.buf.get j) ∧ t.eng.buf.get fill = some 0x80 ∧
      (∀ j, fill < j → j ≤ 55 → t.eng.buf.get j = some 0x00) ∧
      (∀ k, k < 8 → t.eng.buf.get (56 + k) = some (s.eng.len.extractLsb' (56 - 8 * k) 8)) ∧
      (∀ j, 64 ≤ j → t.eng.buf.get j = s.eng.buf.get j)) ∧
    (s.eng.fin = .pend1 → 56 ≤ fill → ∃ t, exec .pad s = .next t ∧ s.SamePort t ∧
      t.eng = { s.eng with buf := t.eng.buf, fin := .pend2, phase := .load } ∧
      (∀ j, j < fill → t.eng.buf.get j = s.eng.buf.get j) ∧ t.eng.buf.get fill = some 0x80 ∧
      (∀ j, fill < j → j ≤ 63 → t.eng.buf.get j = some 0x00) ∧
      (∀ j, 64 ≤ j → t.eng.buf.get j = s.eng.buf.get j)) ∧
    (s.eng.fin = .pend2 → ∃ t, exec .pad s = .next t ∧ s.SamePort t ∧
      t.eng = { s.eng with buf := t.eng.buf, fin := .last, phase := .load } ∧
      (∀ j, j ≤ 55 → t.eng.buf.get j = some 0x00) ∧
      (∀ k, k < 8 → t.eng.buf.get (56 + k) = some (s.eng.len.extractLsb' (56 - 8 * k) 8)) ∧
      (∀ j, 64 ≤ j → t.eng.buf.get j = s.eng.buf.get j)) ∧
    (s.eng.fin = .none ∨ s.eng.fin = .last → exec .pad s = .fault .malformedState)

/-- 42_schedule.md R161, with the big-endian packing of 20_memory.md R52. -/
def Obligations.LoadTakesBlock : Prop :=
  ∀ (s : State) (f : Nat → Byte), s.eng.phase = .load →
    (∀ j, j < 64 → s.eng.buf.get j = some (f j)) →
    ∃ t, exec .load s = .next t ∧ s.SamePort t ∧
      t.eng = { s.eng with
        w := t.eng.w, v := s.eng.h, t := 16, phase := .expand } ∧
      (∀ j, j < 16 → ∃ x : Word, t.eng.w.get j = some x ∧
        x.toNat = (f (4 * j)).toNat * 2 ^ 24 + (f (4 * j + 1)).toNat * 2 ^ 16 +
          (f (4 * j + 2)).toNat * 2 ^ 8 + (f (4 * j + 3)).toNat) ∧
      (∀ j, 16 ≤ j → t.eng.w.get j = s.eng.w.get j)

/-- 42_schedule.md R162. -/
def Obligations.ExpandComputesWord : Prop :=
  ∀ (s : State) (w16 w15 w7 w2 : Word), s.eng.phase = .expand → 16 ≤ s.eng.t.val →
    s.eng.w.get (s.eng.t.val - 16) = some w16 → s.eng.w.get (s.eng.t.val - 15) = some w15 →
    s.eng.w.get (s.eng.t.val - 7) = some w7 → s.eng.w.get (s.eng.t.val - 2) = some w2 →
    ∃ t, exec .expand s = .next t ∧ s.SamePort t ∧
      t.eng = { s.eng with w := t.eng.w, t := t.eng.t, phase := t.eng.phase } ∧
      t.eng.w.get s.eng.t.val = some (w16 + smallSigma0 w15 + w7 + smallSigma1 w2) ∧
      (∀ j, j ≠ s.eng.t.val → t.eng.w.get j = s.eng.w.get j) ∧
      (s.eng.t.val = 63 → t.eng.t = 0 ∧ t.eng.phase = .round) ∧
      (s.eng.t.val < 63 → t.eng.t.val = s.eng.t.val + 1 ∧ t.eng.phase = .expand)

/-- 43_compression.md R177, with the two sums written out as that rule writes them. -/
def Obligations.RoundTransformsVariables : Prop :=
  ∀ (s : State) (a b c d e f g h x : Word), s.eng.phase = .round →
    s.eng.v = ⟨a, b, c, d, e, f, g, h⟩ →
    s.eng.w.get s.eng.t.val = some x →
    let temp1 := h + bigSigma1 e + ch e f g + kAt s.eng.t.val + x
    let temp2 := bigSigma0 a + maj a b c
    ∃ t, exec .round s = .next t ∧ s.SamePort t ∧
      t.eng = { s.eng with
        v := ⟨temp1 + temp2, a, b, c, d + temp1, e, f, g⟩
        t := t.eng.t, phase := t.eng.phase } ∧
      (s.eng.t.val = 63 → t.eng.t = 0 ∧ t.eng.phase = .update) ∧
      (s.eng.t.val < 63 → t.eng.t.val = s.eng.t.val + 1 ∧ t.eng.phase = .round)

/-- 43_compression.md section 2 (the UPDATE micro-step): the sums and the three continuations. That FIN PEND1
is the fault `malformedState` is the model's own choice (log entry 6, DEDUCED), where the spec says that a
model may give no step. -/
def Obligations.UpdateAddsAndContinues : Prop :=
  ∀ s : State, s.eng.phase = .update →
    (s.eng.fin ≠ .pend1 → ∃ t, exec .update s = .next t ∧ s.SamePort t ∧
      t.eng = { s.eng with h := t.eng.h, phase := t.eng.phase, fin := t.eng.fin } ∧
      (∀ i, t.eng.h.get i = s.eng.h.get i + s.eng.v.get i) ∧
      (s.eng.fin = .none → t.eng.phase = .idle ∧ t.eng.fin = .none) ∧
      (s.eng.fin = .pend2 → t.eng.phase = .pad ∧ t.eng.fin = .pend2) ∧
      (s.eng.fin = .last → t.eng.phase = .done ∧ t.eng.fin = .none)) ∧
    (s.eng.fin = .pend1 → exec .update s = .fault .malformedState)

/-- Derived from 10_state.md section 7 (storage nothing has written): a micro-step that reads an absent element of the
memories BUF and W stops with a fault, and reads no zero in its place. -/
def Obligations.AbsentElementFaults : Prop :=
  ∀ s : State,
    (s.eng.phase = .load → (∃ j, j < 64 ∧ s.eng.buf.get j = none) →
      exec .load s = .fault .unwrittenCell) ∧
    (s.eng.phase = .expand → 16 ≤ s.eng.t.val →
      (s.eng.w.get (s.eng.t.val - 16) = none ∨ s.eng.w.get (s.eng.t.val - 15) = none ∨
       s.eng.w.get (s.eng.t.val - 7) = none ∨ s.eng.w.get (s.eng.t.val - 2) = none) →
      exec .expand s = .fault .unwrittenCell) ∧
    (s.eng.phase = .round → s.eng.w.get s.eng.t.val = none →
      exec .round s = .fault .unwrittenCell)

/-- Derived from 60_exceptions.md section 6 and 93_implementation_defined.md section 1 (U1), log entry 6: the
combinations that no rule produces get no step, unless the environment resets the engine, and no other
state stops with this fault: a step that runs an instruction never answers it. -/
def Obligations.MalformedStateIsStuck : Prop :=
  ∀ s : State, s.resetDue = false →
    ((s.eng.phase = .pad ∧ (s.eng.fin = .none ∨ s.eng.fin = .last)) ∨
     (s.eng.phase = .update ∧ s.eng.fin = .pend1) ∨
     (s.eng.phase ≠ .expand ∧ s.eng.phase ≠ .round ∧ s.eng.t ≠ 0) ∨
     (s.eng.phase = .expand ∧ s.eng.t.val < 16) ∨ s.eng.len.toNat % 8 ≠ 0 ↔
     step s = .fault .malformedState)

/-! ## The whole machine -/

/-- Derived from 10_state.md section 1 (the table's column "written by"), over every step: which events can change which
piece of the engine's state. -/
def Obligations.OnlyNamedStepsWrite : Prop :=
  ∀ s s' : State, step s = .next s' →
    (s'.eng.h ≠ s.eng.h →
      s.nextEvent ∈ [.reset, .run .init, .run .update]) ∧
    (s'.eng.v ≠ s.eng.v → s.nextEvent ∈ [.reset, .run .load, .run .round]) ∧
    (s'.eng.w ≠ s.eng.w → s.nextEvent ∈ [.reset, .run .load, .run .expand]) ∧
    (s'.eng.buf ≠ s.eng.buf →
      s.nextEvent ∈ [.reset, .run .pad] ∨ ∃ b, s.nextEvent = .run (.data b)) ∧
    (s'.eng.len ≠ s.eng.len →
      s.nextEvent ∈ [.reset, .run .init] ∨ ∃ b, s.nextEvent = .run (.data b)) ∧
    (s'.eng.phase ≠ s.eng.phase →
      s.nextEvent ∈ [.reset, .run .init, .run .final, .run .pad, .run .load, .run .expand,
        .run .round, .run .update] ∨ ∃ b, s.nextEvent = .run (.data b)) ∧
    (s'.eng.t ≠ s.eng.t →
      s.nextEvent ∈ [.reset, .run .init, .run .load, .run .expand, .run .round]) ∧
    (s'.eng.fin ≠ s.eng.fin →
      s.nextEvent ∈ [.reset, .run .init, .run .final, .run .pad, .run .update])

/-- 44_digest.md R202: every way (PHASE, T, FIN) can change, complete. -/
def Obligations.TransitionTable : Prop :=
  ∀ s s' : State, step s = .next s' →
    let p := s.eng.phase
    let p' := s'.eng.phase
    let same := p' = p ∧ s'.eng.t = s.eng.t ∧ s'.eng.fin = s.eng.fin
    let move := fun (q : Phase) => p' = q ∧ s'.eng.t = s.eng.t ∧ s'.eng.fin = s.eng.fin
    match s.nextEvent with
    | .reset => p' = .idle ∧ s'.eng.t = 0 ∧ s'.eng.fin = .none
    | .stuck => False
    | .wait => same
    | .illegal => same
    | .run .init =>
      (p = .idle ∨ p = .done ∨ p = .error) ∧ p' = .idle ∧ s'.eng.t = 0 ∧ s'.eng.fin = .none
    | .run (.data _) =>
      (p = .idle ∧ s.eng.len ≠ 0xfffffffffffffff8 ∧ s.eng.fill < 63 ∧ same) ∨
      (p = .idle ∧ s.eng.len ≠ 0xfffffffffffffff8 ∧ s.eng.fill = 63 ∧ move .load) ∨
      (p = .idle ∧ s.eng.len = 0xfffffffffffffff8 ∧ move .error) ∨
      ((p = .done ∨ p = .error) ∧ same)
    | .run .final =>
      (p = .idle ∧ p' = .pad ∧ s'.eng.t = s.eng.t ∧ s'.eng.fin = .pend1) ∨
      ((p = .done ∨ p = .error) ∧ same)
    | .run (.rddig _) => same
    | .run (.rdhex _) => same
    | .run .rdstat => same
    | .run .pad =>
      p = .pad ∧ p' = .load ∧ s'.eng.t = s.eng.t ∧
        ((s.eng.fin = .pend1 ∧ s.eng.fill ≤ 55 ∧ s'.eng.fin = .last) ∨
         (s.eng.fin = .pend1 ∧ 56 ≤ s.eng.fill ∧ s'.eng.fin = .pend2) ∨
         (s.eng.fin = .pend2 ∧ s'.eng.fin = .last))
    | .run .load => p = .load ∧ p' = .expand ∧ s'.eng.t = 16 ∧ s'.eng.fin = s.eng.fin
    | .run .expand =>
      p = .expand ∧ s'.eng.fin = s.eng.fin ∧
        ((s.eng.t.val < 63 ∧ p' = .expand ∧ s'.eng.t.val = s.eng.t.val + 1) ∨
         (s.eng.t.val = 63 ∧ p' = .round ∧ s'.eng.t = 0))
    | .run .round =>
      p = .round ∧ s'.eng.fin = s.eng.fin ∧
        ((s.eng.t.val < 63 ∧ p' = .round ∧ s'.eng.t.val = s.eng.t.val + 1) ∨
         (s.eng.t.val = 63 ∧ p' = .update ∧ s'.eng.t = 0))
    | .run .update =>
      p = .update ∧ s'.eng.t = s.eng.t ∧
        ((s.eng.fin = .none ∧ p' = .idle ∧ s'.eng.fin = .none) ∨
         (s.eng.fin = .pend2 ∧ p' = .pad ∧ s'.eng.fin = .pend2) ∨
         (s.eng.fin = .last ∧ p' = .done ∧ s'.eng.fin = .none))

/-- 60_exceptions.md R228: the only ways out of phase ERROR are INIT and the reset event, and both leave a
fresh message. -/
def Obligations.ErrorLeftOnlyByInitOrReset : Prop :=
  ∀ s s' : State, step s = .next s' → s.eng.phase = .error →
    (s'.eng = s.eng ∧ status s'.eng.phase = 0x04) ∨
    ((s.nextEvent = .reset ∨ s.nextEvent = .run .init) ∧ s'.eng.h = iv ∧ s'.eng.len = 0 ∧
      s'.eng.phase = .idle ∧ status s'.eng.phase = 0)

/-- Derived from 70_reset_and_hazards.md section 3 (the BUSY flag is a sample; the digest is lost on INIT): in
phase DONE every step but INIT and reset leaves the whole engine, so DV stays 1 and every read gives
the same digest. -/
def Obligations.DigestStaysUntilRestart : Prop :=
  ∀ s s' : State, step s = .next s' → s.eng.phase = .done →
    s'.eng = s.eng ∨ s.nextEvent = .reset ∨ (s.nextEvent = .run .init ∧ s'.eng.phase = .idle)

/-- The invariant holds at reset, whatever is presented and scheduled (derived from 10_state.md section 7). -/
def Obligations.InvariantAtReset : Prop :=
  ∀ (cmds : List CmdWord) (turns : List Turn) (drawn : Nat),
    ({ State.reset with cmds := cmds, turns := turns, drawn := drawn } : State).eng.Inv

/-- Derived from 10_state.md section 7 (invariants (a), (b), (c), (e); storage written before it is read): every
step keeps them, with the canonical form of BUF and W. -/
def Obligations.EveryStepKeepsInvariant : Prop :=
  ∀ s s' : State, s.eng.Inv → step s = .next s' → s'.eng.Inv

/-- Derived from 10_state.md section 7 ("so the fault is unreachable") and 60_exceptions.md section 6: no run from
reset faults or refuses, under any words and any order of steps. -/
def Obligations.EveryReachableStepIsSafe : Prop :=
  ∀ s : State, Reachable s → s.eng.Inv ∧ SafeStep s

/-- Derived from 41_padding.md section 3 (padding property, the engine's part): in every block that LOAD reads
with FIN = LAST, `BUF[56..63]` is LEN, most significant byte first. -/
def Obligations.LastBlockEndsWithLength : Prop :=
  ∀ s : State, Reachable s → s.eng.phase = .load → s.eng.fin = .last →
    ∀ k, k < 8 → s.eng.buf.get (56 + k) = some (s.eng.len.extractLsb' (56 - 8 * k) 8)

/-! ## The pure functions (00_scope.md R15) -/

/-- 41_padding.md R140, with the block count and the document's padding property of sections 1 and 3. -/
def Obligations.PadShape : Prop :=
  ∀ m : List Byte,
    (2 ^ 64 ≤ 8 * m.length → pad m = .error .inputTooLarge) ∧
    (8 * m.length < 2 ^ 64 → ∃ p k, pad m = .ok p ∧ k < 64 ∧
      (m.length + 1 + k) % 64 = 56 ∧ p.length = m.length + 1 + k + 8 ∧
      p.length = 64 * blockCount m.length ∧ p.take m.length = m ∧ p[m.length]? = some 0x80 ∧
      (∀ j, m.length < j → j < m.length + 1 + k → p[j]? = some 0x00) ∧
      (p.drop (p.length - 8)).foldl (fun acc b => acc * 256 + b.toNat) 0 = 8 * m.length)

/-- 42_schedule.md R160. -/
def Obligations.ScheduleRecurrence : Prop :=
  ∀ m : List Word, m.length = 16 →
    (schedule m).length = 64 ∧ (∀ i, i < 16 → (schedule m)[i]? = m[i]?) ∧
    (∀ i, 16 ≤ i → i < 64 → ∃ w16 w15 w7 w2,
      (schedule m)[i - 16]? = some w16 ∧ (schedule m)[i - 15]? = some w15 ∧
      (schedule m)[i - 7]? = some w7 ∧ (schedule m)[i - 2]? = some w2 ∧
      (schedule m)[i]? = some (w16 + smallSigma0 w15 + w7 + smallSigma1 w2))

/-- 44_digest.md R196, R197 and R206, with the views of 10_state.md R34. -/
def Obligations.DigestAndHexViews : Prop :=
  ∀ h : Oct Word,
    (serialize h).length = 32 ∧ (toHex (serialize h)).length = 64 ∧
    (∀ (i : Fin 8) (k : Nat), k < 4 →
      (serialize h)[4 * i.val + k]? = some ((h.get i).extractLsb' (24 - 8 * k) 8)) ∧
    (∀ j, j < 32 → (serialize h)[j]? = some (digestByte h j)) ∧
    (∀ j, j < 32 →
      (toHex (serialize h))[2 * j]? = some (hexDigit ((digestByte h j).extractLsb' 4 4)) ∧
      (toHex (serialize h))[2 * j + 1]? = some (hexDigit ((digestByte h j).extractLsb' 0 4))) ∧
    (∀ j, j < 64 → (toHex (serialize h))[j]? = some (hexChar h j)) ∧
    (∀ n : BitVec 4, (hexDigit n).toNat = if n.toNat ≤ 9 then 0x30 + n.toNat else 0x57 + n.toNat)

/-! ## Blocks, runs, and the hash -/

/-- Derived from 42_schedule.md section 3 and 43_compression.md section 3: LOAD, 48 EXPAND, 64 ROUND and one
UPDATE turn the State S into `compress(S, schedule(M))`, with no word accepted in between. -/
def Obligations.BlockIsCompressed : Prop :=
  ∀ (s : State) (f : Nat → Byte), s.eng.Inv → s.eng.phase = .load → s.noReset → s.hostWaits →
    (∀ j, j < 64 → s.eng.buf.get j = some (f j)) →
    ∃ s1 s2, Host.Core.run core 49 s = .next s1 ∧ Host.Core.run core 114 s = .next s2 ∧
      s1.eng.phase = .round ∧ s1.eng.t = 0 ∧ s1.eng.v = s.eng.h ∧ s1.eng.h = s.eng.h ∧
      s1.eng.w.holds (schedule (wordsOf ((List.range 64).map f))) ∧
      s2.eng.h = compress s.eng.h (schedule (wordsOf ((List.range 64).map f))) ∧
      s2.eng.buf = s.eng.buf ∧ s2.eng.len = s.eng.len ∧ s2.cmds = s.cmds ∧ s2.resps = s.resps ∧
      (s.eng.fin = .none → s2.eng.phase = .idle) ∧ (s.eng.fin = .pend2 → s2.eng.phase = .pad) ∧
      (s.eng.fin = .last → s2.eng.phase = .done)

/-- Derived from 70_reset_and_hazards.md section 4 (termination): from a busy state, while nothing is accepted,
the engine reaches IDLE or DONE after at most 230 micro-steps, exactly `stepsLeft` of them. -/
def Obligations.BusyEndsWithin230Steps : Prop :=
  ∀ s : State, s.eng.Inv → s.noReset → s.hostWaits → s.eng.phase.busy = true →
    s.eng.stepsLeft ≤ 230 ∧
    ∃ s', Host.Core.run core s.eng.stepsLeft s = .next s' ∧
      (s'.eng.phase = .idle ∨ s'.eng.phase = .done) ∧ s'.cmds = s.cmds ∧ s'.resps = s.resps

/-- Derived from 70_reset_and_hazards.md section 4: every sequence of words is processed to its end, each word
answered once, under every order of steps. -/
def Obligations.EveryWordIsAnswered : Prop :=
  ∀ s : State, s.eng.Inv → s.noReset →
    ∃ k s', k ≤ 231 * s.cmds.length + 230 ∧ Host.Core.run core k s = .next s' ∧ s'.over ∧
      ∃ rs, s'.resps = s.resps ++ rs ∧ rs.length = s.cmds.length

/-- Derived from 44_digest.md section 4 (determinism): the state a sequence of words leads to does not depend
on the order of steps, and neither does any response but RDSTAT's. -/
def Obligations.OrderOfStepsDoesNotMatter : Prop :=
  ∀ (s1 s2 t1 t2 : State) (k1 k2 : Nat),
    s1.eng.Inv → s1.eng = s2.eng → s1.cmds = s2.cmds → s1.resps = s2.resps →
    s1.noReset → s2.noReset →
    Host.Core.run core k1 s1 = .next t1 → t1.over →
    Host.Core.run core k2 s2 = .next t2 → t2.over →
    t1.eng = t2.eng ∧ t1.resps.length = t2.resps.length ∧
    (∀ (i : Nat) (c : CmdWord), s1.cmds[i]? = some c → c ≠ 0x6000 →
      t1.resps[s1.resps.length + i]? = t2.resps[s1.resps.length + i]?)

/-- HEADLINE, derived from 44_digest.md section 4 (correctness of the engine against the function) and
70_reset_and_hazards.md section 4 (step counts). From any non-busy state, or from reset without INIT, the words
`INIT`, `DATA m[0]` to `DATA m[n-1]`, `FINAL`, with RDSTAT and illegal words anywhere among them and under
any order of steps, are all accepted, every one of them answered OK, and the engine ends in DONE, after
114 N + P micro-steps, with the digest `hash(m)`. -/
def Obligations.EngineComputesHash : Prop :=
  ∀ (s : State) (m : List Byte), s.eng.Inv → s.eng.phase.busy = false → s.noReset →
    m.length < 2 ^ 61 →
    (s.cmds.filter effective = hashWords m ∨
     (s.eng = State.reset.eng ∧ s.cmds.filter effective = (hashWords m).tail)) →
    ∃ s' rs, Host.Core.run core
        (s.cmds.length + 114 * blockCount m.length + padSteps m.length) s = .next s' ∧
      s'.over ∧ s'.eng.phase = .done ∧ hashOf m = .ok (serialize s'.eng.h) ∧
      s'.resps = s.resps ++ rs ∧ rs.length = s.cmds.length ∧
      (∀ (i : Nat) (c : CmdWord), s.cmds[i]? = some c → effective c = true → rs[i]? = some 0x0000)

/-! ## The text form (30_encoding.md R94) -/

/-- Derived from 30_encoding.md section 5: each pseudo-command's expansion, read back through the decoder. -/
def Obligations.PseudoCommandsExpand : Prop :=
  ∀ (text : List Byte) (n : Nat) (b : Byte),
    ((AsmLine.msg text).words.map fun ws => ws.map decodeCommand) =
      some (text.map fun x => .ok (.data x)) ∧
    ((AsmLine.hash text).words.map fun ws => ws.map decodeCommand) =
      some (.ok .init :: (text.map (fun x => .ok (.data x)) ++ [.ok .final])) ∧
    (AsmLine.digest.words.map fun ws => ws.map decodeCommand) =
      some ((List.range 32).map fun i => .ok (.rddig (BitVec.ofNat 8 i))) ∧
    (AsmLine.hexdigest.words.map fun ws => ws.map decodeCommand) =
      some ((List.range 64).map fun j => .ok (.rdhex (BitVec.ofNat 8 j))) ∧
    ((AsmLine.rep n b.toNat).words.map fun ws => ws.map decodeCommand) =
      some (List.replicate n (.ok (.data b)))

/-! ## The reset value of V -/

/-- Derived from 10_state.md section 7 (V "is written by LOAD before ROUND and UPDATE read it"), log entry 18:
what V holds outside EXPAND, ROUND and UPDATE never shows. Two runs of any length from states that differ in V
alone go on together, with the same words, responses and order of steps, engines that differ in V at most, and
equal engines whenever V is in use. So no claim depends on the value that the model names at reset. -/
def Obligations.ResetValueOfVNeverShows : Prop :=
  ∀ (s t : State) (v : Oct Word) (k : Nat),
    s.eng.phase ≠ .expand → s.eng.phase ≠ .round → s.eng.phase ≠ .update →
    Host.Core.run core k s = .next t →
    ∃ v', Host.Core.run core k { s with eng := { s.eng with v := v } } =
        .next { t with eng := { t.eng with v := v' } } ∧
      (t.eng.phase = .expand ∨ t.eng.phase = .round ∨ t.eng.phase = .update → v' = t.eng.v)
end

