-- ==== Sys2Proof/Laws/Memory.lean ====
section
/-! SUPPORT. The laws of the index spaces: read after write, the other elements untouched, the canonical
form kept, and equal contents are equal data. -/

namespace Sys2Proof.Machine

variable {α : Type}

@[simp] theorem Memory.get_nil (i : Nat) : Memory.get ([] : Memory α) i = none := rfl

theorem Memory.get_cons (k : Nat) (v : α) (m : Memory α) (i : Nat) :
    Memory.get ((k, v) :: m) i = if i = k then some v else Memory.get m i := rfl

/-- Read after write, at the same place and at every other. -/
theorem Memory.get_set (m : Memory α) (i : Nat) (v : α) (j : Nat) :
    (m.set i v).get j = if j = i then some v else m.get j := by
  induction m with
  | nil => simp [Memory.set, Memory.get_cons]
  | cons c m ih =>
    obtain ⟨k, u⟩ := c
    simp only [Memory.set]
    split
    · simp [Memory.get_cons]
    · split
      · next h => subst h; simp only [Memory.get_cons]; split <;> rfl
      · next h => simp only [Memory.get_cons, ih]; split <;> split <;> simp_all

@[simp] theorem Memory.get_set_same (m : Memory α) (i : Nat) (v : α) :
    (m.set i v).get i = some v := by simp [Memory.get_set]

theorem Memory.get_set_other (m : Memory α) {i j : Nat} (v : α) (h : j ≠ i) :
    (m.set i v).get j = m.get j := by simp [Memory.get_set, h]

/-- Consecutive writes: the written range, and every other element untouched. -/
theorem Memory.get_setFrom (vs : List α) : ∀ (m : Memory α) (i j : Nat),
    (m.setFrom i vs).get j = if i ≤ j ∧ j < i + vs.length then vs[j - i]? else m.get j := by
  induction vs with
  | nil => intro m i j; simp [Memory.setFrom]
  | cons v vs ih =>
    intro m i j
    rw [Memory.setFrom, ih, Memory.get_set]
    by_cases hj : j = i
    · subst hj
      simp
    · by_cases h1 : i + 1 ≤ j ∧ j < i + 1 + vs.length
      · have h2 : i ≤ j ∧ j < i + (v :: vs).length := by simp; omega
        rw [if_pos h1, if_pos h2]
        have : j - i = (j - (i + 1)) + 1 := by omega
        rw [this, List.getElem?_cons_succ]
      · have h2 : ¬ (i ≤ j ∧ j < i + (v :: vs).length) := by simp; omega
        rw [if_neg h1, if_neg h2, if_neg hj]

/-- Any index that a write adds is the written one. -/
theorem Memory.mem_set {m : Memory α} {i : Nat} {v : α} {c : Nat × α} (h : c ∈ m.set i v) :
    c = (i, v) ∨ c ∈ m := by
  induction m with
  | nil => simpa [Memory.set] using h
  | cons d m ih =>
    obtain ⟨k, u⟩ := d
    simp only [Memory.set] at h
    split at h
    · simpa using h
    · split at h
      · rcases List.mem_cons.mp h with h | h
        · exact .inl h
        · exact .inr (List.mem_cons_of_mem _ h)
      · rcases List.mem_cons.mp h with h | h
        · exact .inr (h ▸ List.mem_cons_self)
        · exact (ih h).imp id (List.mem_cons_of_mem _)

/-- A write of an element below 64 keeps the canonical form. -/
theorem Memory.wf_set {m : Memory α} (hm : m.wf) {i : Nat} (hi : i < 64) (v : α) :
    (m.set i v).wf := by
  refine ⟨?_, fun c hc => ?_⟩
  · obtain ⟨hp, -⟩ := hm
    induction m with
    | nil => simp [Memory.set]
    | cons d m ih =>
      obtain ⟨k, u⟩ := d
      rw [List.pairwise_cons] at hp
      simp only [Memory.set]
      split
      · next h =>
        rw [List.pairwise_cons, List.pairwise_cons]
        refine ⟨fun c hc => ?_, hp⟩
        rcases List.mem_cons.mp hc with rfl | hc
        · exact h
        · exact Nat.lt_trans h (hp.1 c hc)
      · split
        · next h => subst h; rw [List.pairwise_cons]; exact hp
        · rw [List.pairwise_cons]
          refine ⟨fun c hc => ?_, ih hp.2⟩
          rcases Memory.mem_set hc with rfl | hc
          · simp only; omega
          · exact hp.1 c hc
  · rcases Memory.mem_set hc with rfl | hc
    · exact hi
    · exact hm.2 c hc

/-- Consecutive writes of elements below 64 keep the canonical form. -/
theorem Memory.wf_setFrom (vs : List α) : ∀ {m : Memory α} {i : Nat}, m.wf → i + vs.length ≤ 64 →
    (m.setFrom i vs).wf := by
  induction vs with
  | nil => intro m i hm _; exact hm
  | cons v vs ih =>
    intro m i hm h
    simp only [List.length_cons] at h
    exact ih (Memory.wf_set hm (by omega) v) (by omega)

/-- Nothing is listed after reset. -/
theorem Memory.wf_nil : Memory.wf ([] : Memory α) := ⟨List.Pairwise.nil, by simp⟩

theorem Memory.get_of_mem {m : Memory α} (hm : m.Pairwise (fun a b => a.1 < b.1)) {c : Nat × α}
    (hc : c ∈ m) : m.get c.1 = some c.2 := by
  induction m with
  | nil => simp at hc
  | cons d m ih =>
    rw [List.pairwise_cons] at hm
    rw [Memory.get_cons]
    rcases List.mem_cons.mp hc with rfl | hc
    · simp
    · have := hm.1 c hc
      rw [if_neg (by omega)]
      exact ih hm.2 hc

theorem Memory.mem_of_get {m : Memory α} {i : Nat} {v : α} (h : m.get i = some v) : (i, v) ∈ m := by
  induction m with
  | nil => simp at h
  | cons d m ih =>
    rw [Memory.get_cons] at h
    split at h
    · next hk => cases h; subst hk; simp
    · exact List.mem_cons_of_mem _ (ih h)

/-- Equal contents in canonical form are equal data. -/
theorem Memory.ext_get {m n : Memory α} (hm : m.wf) (hn : n.wf) (h : ∀ i, m.get i = n.get i) :
    m = n := by
  have hperm : ∀ {a b : Memory α}, a.wf → (∀ i, a.get i = b.get i) → ∀ c ∈ a, c ∈ b := by
    intro a b ha hab c hc
    have := Memory.get_of_mem ha.1 hc
    rw [hab] at this
    exact Memory.mem_of_get this
  have hnd : ∀ {a : Memory α}, a.wf → a.Nodup := fun ha =>
    ha.1.imp (fun {a b} hlt heq => absurd (congrArg Prod.fst heq) (Nat.ne_of_lt hlt))
  have hp : List.Perm m n :=
    (List.perm_ext_iff_of_nodup (hnd hm) (hnd hn)).mpr fun c =>
      ⟨hperm hm h c, hperm hn (fun i => (h i).symm) c⟩
  refine hp.eq_of_pairwise (le := fun a b => a.1 < b.1) ?_ hm.1 hn.1
  intro a b _ _ hab hba
  omega

theorem Memory.writtenBelow_mono {m : Memory α} {n k : Nat} (h : m.writtenBelow n) (hk : k ≤ n) :
    m.writtenBelow k := fun j hj => h j (Nat.lt_of_lt_of_le hj hk)

/-- A write never takes a value away. -/
theorem Memory.writtenBelow_set {m : Memory α} {n i : Nat} (h : m.writtenBelow n) (v : α) :
    (m.set i v).writtenBelow n := by
  intro j hj
  rw [Memory.get_set]
  split
  · rfl
  · exact h j hj

/-- A write at the end of the written range extends it. -/
theorem Memory.writtenBelow_set_succ {m : Memory α} {n : Nat} (h : m.writtenBelow n) (v : α) :
    (m.set n v).writtenBelow (n + 1) := by
  intro j hj
  rw [Memory.get_set]
  split
  · rfl
  · exact h j (by omega)

/-- Consecutive writes from the end of the written range extend it. -/
theorem Memory.writtenBelow_setFrom {m : Memory α} {i : Nat} (h : m.writtenBelow i) (vs : List α) :
    (m.setFrom i vs).writtenBelow (i + vs.length) := by
  intro j hj
  rw [Memory.get_setFrom]
  split
  · rw [List.getElem?_eq_getElem (by omega)]; rfl
  · exact h j (by omega)

end Sys2Proof.Machine
end

