-- ==== Sys2Proof/Laws/State.lean ====
section
/-! SUPPORT. The small lemmas of the state: one per field per update, each true by rfl, so that no later
proof unfolds a record update; and the elements of eight-element register files. -/

namespace Sys2Proof

@[simp] theorem Oct.map_x0 {α β : Type} (f : α → β) (o : Oct α) : (o.map f).x0 = f o.x0 := rfl
@[simp] theorem Oct.map_x1 {α β : Type} (f : α → β) (o : Oct α) : (o.map f).x1 = f o.x1 := rfl
@[simp] theorem Oct.map_x2 {α β : Type} (f : α → β) (o : Oct α) : (o.map f).x2 = f o.x2 := rfl
@[simp] theorem Oct.map_x3 {α β : Type} (f : α → β) (o : Oct α) : (o.map f).x3 = f o.x3 := rfl
@[simp] theorem Oct.map_x4 {α β : Type} (f : α → β) (o : Oct α) : (o.map f).x4 = f o.x4 := rfl
@[simp] theorem Oct.map_x5 {α β : Type} (f : α → β) (o : Oct α) : (o.map f).x5 = f o.x5 := rfl
@[simp] theorem Oct.map_x6 {α β : Type} (f : α → β) (o : Oct α) : (o.map f).x6 = f o.x6 := rfl
@[simp] theorem Oct.map_x7 {α β : Type} (f : α → β) (o : Oct α) : (o.map f).x7 = f o.x7 := rfl

theorem Oct.forall_fin_eight {p : Fin 8 → Prop} :
    (∀ i, p i) ↔ p 0 ∧ p 1 ∧ p 2 ∧ p 3 ∧ p 4 ∧ p 5 ∧ p 6 ∧ p 7 := by
  constructor
  · intro h; exact ⟨h 0, h 1, h 2, h 3, h 4, h 5, h 6, h 7⟩
  · rintro ⟨h0, h1, h2, h3, h4, h5, h6, h7⟩ i
    match i with
    | 0 => exact h0
    | 1 => exact h1
    | 2 => exact h2
    | 3 => exact h3
    | 4 => exact h4
    | 5 => exact h5
    | 6 => exact h6
    | 7 => exact h7

theorem Oct.ext_get {α : Type} {o p : Oct α} (h : ∀ i, o.get i = p.get i) : o = p := by
  obtain ⟨h0, h1, h2, h3, h4, h5, h6, h7⟩ := Oct.forall_fin_eight.mp h
  cases o; cases p
  simp_all [Oct.get]

@[simp] theorem Oct.get_map {α β : Type} (f : α → β) (o : Oct α) (i : Fin 8) :
    (o.map f).get i = f (o.get i) := by
  revert i
  rw [Oct.forall_fin_eight]
  exact ⟨rfl, rfl, rfl, rfl, rfl, rfl, rfl, rfl⟩

@[simp] theorem Oct.get_zip {α β γ : Type} (f : α → β → γ) (o : Oct α) (p : Oct β) (i : Fin 8) :
    (Oct.zip f o p).get i = f (o.get i) (p.get i) := by
  revert i
  rw [Oct.forall_fin_eight]
  exact ⟨rfl, rfl, rfl, rfl, rfl, rfl, rfl, rfl⟩

end Sys2Proof

namespace Sys2Proof.Machine

section Respond
variable (s : State) (code : RespCode) (data : Byte)

@[simp] theorem State.respond_eng : (s.respond code data).eng = s.eng := rfl
@[simp] theorem State.respond_cmds : (s.respond code data).cmds = s.cmds.tail := rfl
@[simp] theorem State.respond_resps :
    (s.respond code data).resps = s.resps ++ [respWord code data] := rfl
@[simp] theorem State.respond_turns : (s.respond code data).turns = s.turns := rfl
@[simp] theorem State.respond_drawn : (s.respond code data).drawn = s.drawn := rfl

end Respond

section RefuseIllegal
variable (s : State)

@[simp] theorem State.refuseIllegal_eng : s.refuseIllegal.eng = s.eng := rfl
@[simp] theorem State.refuseIllegal_cmds : s.refuseIllegal.cmds = s.cmds.tail := rfl
@[simp] theorem State.refuseIllegal_resps :
    s.refuseIllegal.resps = s.resps ++ [respWord .nakIllegal 0] := rfl
@[simp] theorem State.refuseIllegal_turns : s.refuseIllegal.turns = s.turns := rfl
@[simp] theorem State.refuseIllegal_drawn : s.refuseIllegal.drawn = s.drawn := rfl

end RefuseIllegal

section Answer
variable (s : State) (a : Answer)

@[simp] theorem State.answer_eng : (s.answer a).eng = a.eng := rfl
@[simp] theorem State.answer_cmds : (s.answer a).cmds = s.cmds.tail := rfl
@[simp] theorem State.answer_resps :
    (s.answer a).resps = s.resps ++ [respWord a.code a.data] := rfl
@[simp] theorem State.answer_turns : (s.answer a).turns = s.turns := rfl
@[simp] theorem State.answer_drawn : (s.answer a).drawn = s.drawn := rfl

end Answer

section ResetEvent
variable (s : State)

@[simp] theorem State.resetEvent_eng : s.resetEvent.eng = Engine.reset := rfl
@[simp] theorem State.resetEvent_cmds : s.resetEvent.cmds = s.cmds := rfl
@[simp] theorem State.resetEvent_resps : s.resetEvent.resps = s.resps := rfl
@[simp] theorem State.resetEvent_turns : s.resetEvent.turns = s.turns := rfl
@[simp] theorem State.resetEvent_drawn : s.resetEvent.drawn = s.drawn := rfl

end ResetEvent

section PassTurn
variable (s : State)

@[simp] theorem State.passTurn_eng : s.passTurn.eng = s.eng := by
  unfold State.passTurn; split
  · rfl
  · split <;> rfl

@[simp] theorem State.passTurn_cmds : s.passTurn.cmds = s.cmds := by
  unfold State.passTurn; split
  · rfl
  · split <;> rfl

@[simp] theorem State.passTurn_resps : s.passTurn.resps = s.resps := by
  unfold State.passTurn; split
  · rfl
  · split <;> rfl

@[simp] theorem State.passTurn_turns : s.passTurn.turns = s.turns.tail := by
  unfold State.passTurn; split
  · next h => simp [h]
  · next h => split <;> simp [h]

end PassTurn

section StartMessage
variable (e : Engine)

@[simp] theorem Engine.startMessage_h : e.startMessage.h = iv := rfl
@[simp] theorem Engine.startMessage_v : e.startMessage.v = e.v := rfl
@[simp] theorem Engine.startMessage_w : e.startMessage.w = e.w := rfl
@[simp] theorem Engine.startMessage_buf : e.startMessage.buf = e.buf := rfl
@[simp] theorem Engine.startMessage_len : e.startMessage.len = 0 := rfl
@[simp] theorem Engine.startMessage_phase : e.startMessage.phase = .idle := rfl
@[simp] theorem Engine.startMessage_t : e.startMessage.t = 0 := rfl
@[simp] theorem Engine.startMessage_fin : e.startMessage.fin = .none := rfl

end StartMessage

section RaiseInputTooLarge
variable (e : Engine)

@[simp] theorem raiseInputTooLarge_h : (raiseInputTooLarge e).eng.h = e.h := rfl
@[simp] theorem raiseInputTooLarge_v : (raiseInputTooLarge e).eng.v = e.v := rfl
@[simp] theorem raiseInputTooLarge_w : (raiseInputTooLarge e).eng.w = e.w := rfl
@[simp] theorem raiseInputTooLarge_buf : (raiseInputTooLarge e).eng.buf = e.buf := rfl
@[simp] theorem raiseInputTooLarge_len : (raiseInputTooLarge e).eng.len = e.len := rfl
@[simp] theorem raiseInputTooLarge_phase : (raiseInputTooLarge e).eng.phase = .error := rfl
@[simp] theorem raiseInputTooLarge_t : (raiseInputTooLarge e).eng.t = e.t := rfl
@[simp] theorem raiseInputTooLarge_fin : (raiseInputTooLarge e).eng.fin = e.fin := rfl
@[simp] theorem raiseInputTooLarge_code : (raiseInputTooLarge e).code = .errTooLarge := rfl
@[simp] theorem raiseInputTooLarge_data : (raiseInputTooLarge e).data = 0 := rfl

end RaiseInputTooLarge

end Sys2Proof.Machine
end

