-- ==== Sys2Proof/Laws/Steps.lean ====
section
/-! SUPPORT. One spec lemma for each shared operation, one inversion lemma for each effect, and what one step
can do to the engine, said once (`EngineMove`, `step_engineMove`). -/

namespace Sys2Proof.Machine

theorem State.command_busy {s : State} (h : s.eng.phase.busy = true) (p : Phase → Bool)
    (f : Engine → Answer) : s.command p f = s := by simp [State.command, h]

theorem State.command_permitted {s : State} {p : Phase → Bool} (h : s.eng.phase.busy = false)
    (hp : p s.eng.phase = true) (f : Engine → Answer) : s.command p f = s.answer (f s.eng) := by
  simp [State.command, h, hp]

theorem State.command_refused {s : State} {p : Phase → Bool} (h : s.eng.phase.busy = false)
    (hp : p s.eng.phase = false) (f : Engine → Answer) :
    s.command p f = s.respond .nakState 0 := by
  simp [State.command, h, hp]

/-- What a legal command other than RDSTAT can do. -/
theorem State.command_cases (s : State) (p : Phase → Bool) (f : Engine → Answer) :
    (s.eng.phase.busy = true ∧ s.command p f = s) ∨
    (s.eng.phase.busy = false ∧ p s.eng.phase = true ∧ s.command p f = s.answer (f s.eng)) ∨
    (s.eng.phase.busy = false ∧ p s.eng.phase = false ∧
      s.command p f = s.respond .nakState 0) := by
  cases hb : s.eng.phase.busy
  · cases hp : p s.eng.phase
    · exact .inr (.inr ⟨rfl, rfl, State.command_refused hb hp f⟩)
    · exact .inr (.inl ⟨rfl, rfl, State.command_permitted hb hp f⟩)
  · exact .inl ⟨rfl, State.command_busy hb p f⟩

/-- What a micro-step can do: change the engine, by its effect, in its own phase. -/
theorem State.micro_next {s s' : State} {p : Phase} {f : Engine → MicroResult} :
    s.micro p f = .next s' ↔
      s.eng.phase = p ∧ ∃ e, f s.eng = .next e ∧ s' = { s with eng := e } := by
  unfold State.micro
  split
  · next h =>
    cases hf : f s.eng with
    | next e => simp [h, eq_comm]
    | stop r => simp
  · next h => simp [h]

theorem State.micro_of_next {s : State} {p : Phase} {f : Engine → MicroResult} {e : Engine}
    (hp : s.eng.phase = p) (hf : f s.eng = .next e) : s.micro p f = .next { s with eng := e } :=
  State.micro_next.mpr ⟨hp, e, hf, rfl⟩

theorem State.micro_of_stop {s : State} {p : Phase} {f : Engine → MicroResult} {r : Fault}
    (hp : s.eng.phase = p) (hf : f s.eng = .stop r) : s.micro p f = .fault r := by
  simp [State.micro, hp, hf]

/-- When a micro-step stops: in its own phase, by its effect. -/
theorem State.micro_fault {s : State} {p : Phase} {f : Engine → MicroResult} {r : Fault} :
    s.micro p f = .fault r ↔ s.eng.phase = p ∧ f s.eng = .stop r := by
  unfold State.micro
  split
  · next h => cases hf : f s.eng <;> simp [h]
  · next h => simp [h]

/-- What PAD can do. -/
theorem padEffect_next {e e' : Engine} (h : padEffect e = .next e') :
    (e.fin = .pend1 ∧ e.fill ≤ 55 ∧
      e' = { e with buf := e.buf.setFrom e.fill (padTail e), fin := .last, phase := .load }) ∨
    (e.fin = .pend1 ∧ 56 ≤ e.fill ∧
      e' = { e with buf := e.buf.setFrom e.fill (padCut e), fin := .pend2, phase := .load }) ∨
    (e.fin = .pend2 ∧
      e' = { e with buf := e.buf.setFrom 0 (padRest e), fin := .last, phase := .load }) := by
  unfold padEffect at h
  split at h
  · next hf =>
    split at h
    · next hle => exact .inl ⟨hf, hle, (MicroResult.next.inj h).symm⟩
    · next hle => exact .inr (.inl ⟨hf, by omega, (MicroResult.next.inj h).symm⟩)
  · next hf => exact .inr (.inr ⟨hf, (MicroResult.next.inj h).symm⟩)
  · cases h
  · cases h

/-- What LOAD can do. -/
theorem loadEffect_next {e e' : Engine} (h : loadEffect e = .next e') :
    ∃ m, blockWords e.buf 0 16 = some m ∧
      e' = { e with w := e.w.setFrom 0 m, v := e.h, t := 16, phase := .expand } := by
  unfold loadEffect at h
  split at h
  · next m hm => exact ⟨m, hm, (MicroResult.next.inj h).symm⟩
  · cases h

/-- What EXPAND can do. -/
theorem expandEffect_next {e e' : Engine} (h : expandEffect e = .next e') :
    16 ≤ e.t.val ∧ ∃ x, expandWord e.w e.t.val = some x ∧
      ((e.t = 63 ∧ e' = { e with w := e.w.set e.t.val x, t := 0, phase := .round }) ∨
       (e.t ≠ 63 ∧ e' = { e with w := e.w.set e.t.val x, t := nextIndex e.t })) := by
  unfold expandEffect at h
  split at h
  · cases h
  · next ht =>
    refine ⟨by omega, ?_⟩
    split at h
    · next x hx =>
      refine ⟨x, hx, ?_⟩
      split at h
      · next h63 => exact .inl ⟨h63, (MicroResult.next.inj h).symm⟩
      · next h63 => exact .inr ⟨h63, (MicroResult.next.inj h).symm⟩
    · cases h

/-- What ROUND can do. -/
theorem roundEffect_next {e e' : Engine} (h : roundEffect e = .next e') :
    ∃ x, e.w.get e.t.val = some x ∧
      ((e.t = 63 ∧ e' = { e with v := roundFn e.v (kAt e.t.val) x, t := 0, phase := .update }) ∨
       (e.t ≠ 63 ∧ e' = { e with v := roundFn e.v (kAt e.t.val) x, t := nextIndex e.t })) := by
  unfold roundEffect at h
  split at h
  · next x hx =>
    refine ⟨x, hx, ?_⟩
    split at h
    · next h63 => exact .inl ⟨h63, (MicroResult.next.inj h).symm⟩
    · next h63 => exact .inr ⟨h63, (MicroResult.next.inj h).symm⟩
  · cases h

/-- What UPDATE can do. -/
theorem updateEffect_next {e e' : Engine} (h : updateEffect e = .next e') :
    (e.fin = .none ∧ e' = { e with h := Oct.zip addMod e.h e.v, phase := .idle }) ∨
    (e.fin = .pend2 ∧ e' = { e with h := Oct.zip addMod e.h e.v, phase := .pad }) ∨
    (e.fin = .last ∧
      e' = { e with h := Oct.zip addMod e.h e.v, phase := .done, fin := .none }) := by
  unfold updateEffect at h
  split at h
  · next hf => exact .inl ⟨hf, (MicroResult.next.inj h).symm⟩
  · next hf => exact .inr (.inl ⟨hf, (MicroResult.next.inj h).symm⟩)
  · next hf => exact .inr (.inr ⟨hf, (MicroResult.next.inj h).symm⟩)
  · cases h

/-- When a micro-step's effect stops because no rule produces the combination (93_implementation_defined.md U1). -/
theorem padEffect_malformed {e : Engine} (h : padEffect e = .stop .malformedState) :
    e.fin = .none ∨ e.fin = .last := by
  unfold padEffect at h
  split at h
  · split at h <;> cases h
  · cases h
  · next hf => exact .inl hf
  · next hf => exact .inr hf

theorem loadEffect_not_malformed (e : Engine) : loadEffect e ≠ .stop .malformedState := by
  unfold loadEffect; split <;> simp

theorem expandEffect_malformed {e : Engine} (h : expandEffect e = .stop .malformedState) :
    e.t.val < 16 := by
  unfold expandEffect at h
  split at h
  · assumption
  · split at h
    · split at h <;> cases h
    · cases h

theorem roundEffect_not_malformed (e : Engine) : roundEffect e ≠ .stop .malformedState := by
  unfold roundEffect
  split
  · split <;> simp
  · simp

theorem updateEffect_malformed {e : Engine} (h : updateEffect e = .stop .malformedState) :
    e.fin = .pend1 := by
  unfold updateEffect at h
  split at h
  all_goals first | assumption | cases h

/-- An instruction stops for a combination that no rule produces only where the engine is in one. -/
theorem exec_malformed {i : Instr} {s : State} (h : exec i s = .fault .malformedState) :
    s.eng.malformed = true := by
  cases i with
  | init => cases h
  | data b => cases h
  | final => cases h
  | rddig i => simp only [exec, execRddig] at h; split at h <;> cases h
  | rdhex j => simp only [exec, execRdhex] at h; split at h <;> cases h
  | rdstat => cases h
  | pad =>
    obtain ⟨hp, hf⟩ := State.micro_fault.mp h
    rcases padEffect_malformed hf with hf | hf <;> simp [Engine.malformed, hp, hf]
  | load => exact absurd (State.micro_fault.mp h).2 (loadEffect_not_malformed _)
  | expand =>
    obtain ⟨hp, hf⟩ := State.micro_fault.mp h
    simp [Engine.malformed, hp, expandEffect_malformed hf]
  | round => exact absurd (State.micro_fault.mp h).2 (roundEffect_not_malformed _)
  | update =>
    obtain ⟨hp, hf⟩ := State.micro_fault.mp h
    simp [Engine.malformed, hp, updateEffect_malformed hf]

/-- What `DATA b` can do where it is executed. -/
theorem dataEffect_cases (b : Byte) (e : Engine) :
    (e.len = maxLen ∧ dataEffect b e = raiseInputTooLarge e) ∨
    (e.len ≠ maxLen ∧ dataEffect b e =
      { eng := { e with buf := e.buf.set e.fill b, len := e.len + 8,
                        phase := if e.fill = 63 then .load else e.phase }
        code := .ok, data := 0 }) := by
  unfold dataEffect
  split
  · next h => exact .inl ⟨h, rfl⟩
  · next h => exact .inr ⟨h, rfl⟩

/-- What one step can do to the engine, apart from the port. -/
inductive EngineMove : Engine → Engine → Prop where
  | stay (e : Engine) : EngineMove e e
  | reset (e : Engine) : EngineMove e Engine.reset
  | init (e : Engine) : e.phase.busy = false → EngineMove e e.startMessage
  | data (e : Engine) (b : Byte) : e.phase = .idle → EngineMove e (dataEffect b e).eng
  | final (e : Engine) : e.phase = .idle → EngineMove e (finalEffect e).eng
  | pad (e e' : Engine) : e.phase = .pad → padEffect e = .next e' → EngineMove e e'
  | load (e e' : Engine) : e.phase = .load → loadEffect e = .next e' → EngineMove e e'
  | expand (e e' : Engine) : e.phase = .expand → expandEffect e = .next e' → EngineMove e e'
  | round (e e' : Engine) : e.phase = .round → roundEffect e = .next e' → EngineMove e e'
  | update (e e' : Engine) : e.phase = .update → updateEffect e = .next e' → EngineMove e e'

theorem command_engineMove {s : State} {p : Phase → Bool} {f : Engine → Answer}
    (h : s.eng.phase.busy = false → p s.eng.phase = true → EngineMove s.eng (f s.eng).eng) :
    EngineMove s.eng (s.command p f).eng := by
  rcases State.command_cases s p f with ⟨-, hc⟩ | ⟨hb, hp, hc⟩ | ⟨-, -, hc⟩
  · rw [hc]; exact .stay _
  · rw [hc]; exact h hb hp
  · rw [hc]; exact .stay _

/-- What an instruction can do to the engine. -/
theorem exec_engineMove {i : Instr} {s s' : State} (h : exec i s = .next s') :
    EngineMove s.eng s'.eng := by
  cases i with
  | init =>
    cases h
    exact command_engineMove fun hb _ => .init _ hb
  | data b =>
    cases h
    exact command_engineMove fun _ hp => .data _ b (by simpa [permitsMessage] using hp)
  | final =>
    cases h
    exact command_engineMove fun _ hp => .final _ (by simpa [permitsMessage] using hp)
  | rddig i =>
    simp only [exec, execRddig] at h
    split at h <;> cases h
    · exact command_engineMove fun _ _ => .stay _
    · exact .stay _
  | rdhex j =>
    simp only [exec, execRdhex] at h
    split at h <;> cases h
    · exact command_engineMove fun _ _ => .stay _
    · exact .stay _
  | rdstat => cases h; exact .stay _
  | pad => obtain ⟨hp, e, he, rfl⟩ := State.micro_next.mp h; exact .pad _ _ hp he
  | load => obtain ⟨hp, e, he, rfl⟩ := State.micro_next.mp h; exact .load _ _ hp he
  | expand => obtain ⟨hp, e, he, rfl⟩ := State.micro_next.mp h; exact .expand _ _ hp he
  | round => obtain ⟨hp, e, he, rfl⟩ := State.micro_next.mp h; exact .round _ _ hp he
  | update => obtain ⟨hp, e, he, rfl⟩ := State.micro_next.mp h; exact .update _ _ hp he

/-- What a step can do, event by event. -/
theorem step_next {s s' : State} (h : step s = .next s') :
    (s.nextEvent = .reset ∧ s' = s.passTurn.resetEvent) ∨
    (s.nextEvent = .wait ∧ s' = s.passTurn) ∨
    (s.nextEvent = .illegal ∧ s' = s.passTurn.refuseIllegal) ∨
    (∃ i, s.nextEvent = .run i ∧ exec i s.passTurn = .next s') := by
  unfold step at h
  split at h
  · next he => cases h; exact .inl ⟨he, rfl⟩
  · cases h
  · next he => cases h; exact .inr (.inl ⟨he, rfl⟩)
  · next he => cases h; exact .inr (.inr (.inl ⟨he, rfl⟩))
  · next i he => exact .inr (.inr (.inr ⟨i, he, h⟩))

/-- What one step can do to the engine. -/
theorem step_engineMove {s s' : State} (h : step s = .next s') : EngineMove s.eng s'.eng := by
  rcases step_next h with ⟨-, rfl⟩ | ⟨-, rfl⟩ | ⟨-, rfl⟩ | ⟨i, -, hi⟩
  · exact .reset _
  · simpa using EngineMove.stay s.eng
  · simpa using EngineMove.stay s.eng
  · simpa using exec_engineMove hi

/-- Outside a scheduled reset and the malformed combinations, the next step is an agent's. -/
theorem State.nextEvent_eq {s : State} (hr : s.resetDue = false) (hm : s.eng.malformed = false) :
    s.nextEvent = s.agentEvent := by simp [State.nextEvent, hr, hm]

/-- Every busy phase selects the micro-step of its name. -/
theorem microEvent_eq (p : Phase) : microEvent p =
    match p with
    | .idle => .wait
    | .pad => .run .pad
    | .load => .run .load
    | .expand => .run .expand
    | .round => .run .round
    | .update => .run .update
    | .done => .wait
    | .error => .wait := by cases p <;> rfl

end Sys2Proof.Machine
end

