-- ==== Sys2Proof/Laws/Invariant.lean ====
section
/-! SUPPORT. The invariant of the engine, effect by effect: each command's effect and each micro-step keeps
`Engine.Inv`, and in a state that has it every selected micro-step goes on. -/

namespace Sys2Proof.Machine

theorem Engine.fill_eq (e : Engine) : e.fill = e.len.toNat / 8 % 64 := by
  simp [Engine.fill, BitVec.extractLsb'_toNat, Nat.shiftRight_eq_div_pow]

theorem Engine.fill_lt (e : Engine) : e.fill < 64 := by
  rw [Engine.fill_eq]; exact Nat.mod_lt _ (by decide)

@[simp] theorem be64_length (l : BitVec 64) : (be64 l).length = 8 := rfl

theorem padTail_length {e : Engine} (h : e.fill ≤ 55) : e.fill + (padTail e).length = 64 := by
  simp [padTail]; omega

theorem padCut_length (e : Engine) : e.fill + (padCut e).length = 64 := by
  have := e.fill_lt
  simp [padCut]; omega

@[simp] theorem padRest_length (e : Engine) : (padRest e).length = 64 := by simp [padRest]

/-- The length of a list of block words. -/
theorem blockWords_length {buf : Memory Byte} : ∀ {n j : Nat} {m : List Word},
    blockWords buf j n = some m → m.length = n := by
  intro n
  induction n with
  | zero => intro j m h; simp [blockWords] at h; simp [← h]
  | succ n ih =>
    intro j m h
    rw [blockWords] at h
    split at h
    · next x xs _ hxs => cases h; simp [ih hxs]
    · cases h

/-- A block all of whose bytes are written can be read. -/
theorem blockWords_isSome {buf : Memory Byte} : ∀ {n j : Nat},
    buf.writtenBelow (4 * (j + n)) → (blockWords buf j n).isSome = true := by
  intro n
  induction n with
  | zero => intro j _; rfl
  | succ n ih =>
    intro j h
    have h1 : (blockWord buf j).isSome = true := by
      obtain ⟨b0, e0⟩ := Option.isSome_iff_exists.mp (h (4 * j) (by omega))
      obtain ⟨b1, e1⟩ := Option.isSome_iff_exists.mp (h (4 * j + 1) (by omega))
      obtain ⟨b2, e2⟩ := Option.isSome_iff_exists.mp (h (4 * j + 2) (by omega))
      obtain ⟨b3, e3⟩ := Option.isSome_iff_exists.mp (h (4 * j + 3) (by omega))
      simp [blockWord, e0, e1, e2, e3]
    have h2 : (blockWords buf (j + 1) n).isSome = true :=
      ih (Memory.writtenBelow_mono h (by omega))
    obtain ⟨x, hx⟩ := Option.isSome_iff_exists.mp h1
    obtain ⟨xs, hxs⟩ := Option.isSome_iff_exists.mp h2
    simp [blockWords, hx, hxs]

/-- EXPAND's four words are written where every word below its index is. -/
theorem expandWord_isSome {w : Memory Word} {t : Nat} (h : w.writtenBelow t) (ht : 16 ≤ t) :
    (expandWord w t).isSome = true := by
  obtain ⟨a, ea⟩ := Option.isSome_iff_exists.mp (h (t - 16) (by omega))
  obtain ⟨b, eb⟩ := Option.isSome_iff_exists.mp (h (t - 15) (by omega))
  obtain ⟨c, ec⟩ := Option.isSome_iff_exists.mp (h (t - 7) (by omega))
  obtain ⟨d, ed⟩ := Option.isSome_iff_exists.mp (h (t - 2) (by omega))
  simp [expandWord, ea, eb, ec, ed]

theorem nextIndex_val {t : Fin 64} (h : t ≠ 63) : (nextIndex t).val = t.val + 1 := by
  have : t.val ≠ 63 := fun hh => h (Fin.ext hh)
  simp only [nextIndex, Fin.val_add]
  have := t.isLt
  show (t.val + 1) % 64 = t.val + 1
  omega

/-- The malformed combinations are excluded by the invariant. -/
theorem Engine.Inv.notMalformed {e : Engine} (h : e.Inv) : e.malformed = false := by
  have hpad := h.finPad
  have hq := h.finBlock
  have hx := h.indexExpand
  have hz := h.indexZero
  have hl := h.lenBytes
  simp only [Engine.malformed, Bool.or_eq_false_iff, Bool.and_eq_false_iff, hl]
  refine ⟨⟨⟨⟨?_, ?_⟩, ?_⟩, ?_⟩, by simp⟩
  · by_cases hp : e.phase = .pad
    · right; rcases hpad hp with hf | hf <;> simp [hf]
    · left; simp [hp]
  · by_cases hp : e.phase = .update
    · right; have := hq (by rw [hp]; rfl) (by rw [hp]; decide); simp [this]
    · left; simp [hp]
  · by_cases hp : e.phase = .expand
    · simp [hp]
    · by_cases hp2 : e.phase = .round
      · simp [hp2]
      · right; simp [hz hp hp2]
  · by_cases hp : e.phase = .expand
    · right; have := hx hp; simp; omega
    · left; simp [hp]

/-- An engine in a phase that is not busy and reads nothing: what its invariant asks. -/
theorem inv_idleEmpty {e : Engine} (hlen : e.len = 0) (hp : e.phase = .idle) (ht : e.t = 0)
    (hf : e.fin = .none) (hb : e.buf.wf) (hw : e.w.wf) : e.Inv where
  lenBytes := by rw [hlen]; rfl
  indexExpand := by simp [hp]
  indexZero := fun _ _ => ht
  finPad := by simp [hp]
  finQuiet := fun _ => hf
  finBlock := by simp [hp, Phase.busy]
  fillBlock := by simp [hp, Phase.busy]
  bufForm := hb
  wForm := hw
  bufPartial := fun _ j hj => by
    rw [Engine.fill_eq, hlen] at hj
    exact absurd hj (Nat.not_lt_zero j)
  bufFull := by simp [hp]
  wPartial := by simp [hp]
  wFull := by simp [hp]
  vSeeded := by simp [hp]

theorem inv_reset : Engine.reset.Inv :=
  inv_idleEmpty rfl rfl rfl rfl Memory.wf_nil Memory.wf_nil

theorem inv_init {e : Engine} (h : e.Inv) : e.startMessage.Inv :=
  inv_idleEmpty rfl rfl rfl rfl h.bufForm h.wForm

theorem inv_inputTooLarge {e : Engine} (h : e.Inv) (hp : e.phase = .idle) :
    (raiseInputTooLarge e).eng.Inv where
  lenBytes := h.lenBytes
  indexExpand := by simp
  indexZero := fun _ _ => h.indexZero (by simp [hp]) (by simp [hp])
  finPad := by simp
  finQuiet := fun _ => h.finQuiet (by rw [hp]; rfl)
  finBlock := by simp [Phase.busy]
  fillBlock := by simp [Phase.busy]
  bufForm := h.bufForm
  wForm := h.wForm
  bufPartial := by simp
  bufFull := by simp
  wPartial := by simp
  wFull := by simp
  vSeeded := by simp

/-- Below the limit, eight more bits do not wrap. -/
theorem len_add_eight {l : BitVec 64} (h8 : l.toNat % 8 = 0) (hmax : l ≠ maxLen) :
    (l + 8).toNat = l.toNat + 8 := by
  have hne : l.toNat ≠ 2 ^ 64 - 8 := fun hh => hmax (by
    apply BitVec.eq_of_toNat_eq; rw [hh]; rfl)
  have := l.isLt
  rw [BitVec.toNat_add]
  show (l.toNat + 8) % 2 ^ 64 = _
  omega

theorem inv_data {e : Engine} (h : e.Inv) (hp : e.phase = .idle) (b : Byte) :
    (dataEffect b e).eng.Inv := by
  rcases dataEffect_cases b e with ⟨-, heq⟩ | ⟨hmax, heq⟩
  · rw [heq]; exact inv_inputTooLarge h hp
  · have hlen := len_add_eight h.lenBytes hmax
    have hf := e.fill_eq
    have h8 := h.lenBytes
    have ht : e.t = 0 := h.indexZero (by simp [hp]) (by simp [hp])
    have hw := Memory.writtenBelow_set_succ (h.bufPartial (.inl hp)) b
    have hfill : ∀ g : Engine, g.len = e.len + 8 → g.fill = (e.fill + 1) % 64 := by
      intro g hg
      rw [Engine.fill_eq, hg, hlen]; omega
    rw [heq]
    constructor
    case lenBytes => show (e.len + 8).toNat % 8 = 0; omega
    case indexExpand => simp only; split <;> simp [hp]
    case indexZero => exact fun _ _ => ht
    case finPad => simp only; split <;> simp [hp]
    case finQuiet => exact fun _ => h.finQuiet (by rw [hp]; rfl)
    case finBlock => intro _ _; simp [h.finQuiet (by rw [hp]; rfl)]
    case fillBlock =>
      intro hb _ _
      rw [hfill _ rfl]
      by_cases h63 : e.fill = 63
      · rw [h63]
      · simp [h63, hp, Phase.busy] at hb
    case bufForm => exact Memory.wf_set h.bufForm e.fill_lt b
    case wForm => exact h.wForm
    case bufPartial =>
      intro _ j hj
      rw [hfill _ rfl] at hj
      have := e.fill_lt
      exact hw j (by omega)
    case bufFull =>
      intro hl
      by_cases h63 : e.fill = 63
      · rw [h63] at hw ⊢; exact hw
      · simp [h63, hp] at hl
    case wPartial => simp only; split <;> simp [hp]
    case wFull => simp only; split <;> simp [hp]
    case vSeeded => simp only; split <;> simp [hp]

theorem inv_final {e : Engine} (h : e.Inv) (hp : e.phase = .idle) : (finalEffect e).eng.Inv where
  lenBytes := h.lenBytes
  indexExpand := by simp [finalEffect]
  indexZero := fun _ _ => h.indexZero (by simp [hp]) (by simp [hp])
  finPad := fun _ => .inl rfl
  finQuiet := by simp [finalEffect, Phase.busy]
  finBlock := by simp [finalEffect]
  fillBlock := by simp [finalEffect]
  bufForm := h.bufForm
  wForm := h.wForm
  bufPartial := fun _ => h.bufPartial (.inl hp)
  bufFull := by simp [finalEffect]
  wPartial := by simp [finalEffect]
  wFull := by simp [finalEffect]
  vSeeded := by simp [finalEffect]

/-- A block that PAD has completed is ready for LOAD. -/
theorem inv_toLoad {e : Engine} (h : e.Inv) (hp : e.phase = .pad) {buf : Memory Byte}
    {f : Finalization} (hform : buf.wf) (hfull : buf.writtenBelow 64) (hf1 : f ≠ .pend1)
    (hf0 : f ≠ .none) : ({ e with buf := buf, fin := f, phase := .load } : Engine).Inv where
  lenBytes := h.lenBytes
  indexExpand := by simp
  indexZero := fun _ _ => h.indexZero (by simp [hp]) (by simp [hp])
  finPad := by simp
  finQuiet := by simp [Phase.busy]
  finBlock := fun _ _ => hf1
  fillBlock := fun _ _ h0 => absurd h0 hf0
  bufForm := hform
  wForm := h.wForm
  bufPartial := by simp
  bufFull := fun _ => hfull
  wPartial := by simp
  wFull := by simp
  vSeeded := by simp

theorem inv_pad {e e' : Engine} (h : e.Inv) (hp : e.phase = .pad) (hs : padEffect e = .next e') :
    e'.Inv := by
  rcases padEffect_next hs with ⟨hf, hle, rfl⟩ | ⟨hf, -, rfl⟩ | ⟨hf, rfl⟩
  · have hl := padTail_length hle
    refine inv_toLoad h hp (Memory.wf_setFrom _ h.bufForm (by omega)) ?_ (by simp) (by simp)
    have := Memory.writtenBelow_setFrom (h.bufPartial (.inr ⟨hp, hf⟩)) (padTail e)
    rwa [hl] at this
  · have hl := padCut_length e
    refine inv_toLoad h hp (Memory.wf_setFrom _ h.bufForm (by omega)) ?_ (by simp) (by simp)
    have := Memory.writtenBelow_setFrom (h.bufPartial (.inr ⟨hp, hf⟩)) (padCut e)
    rwa [hl] at this
  · refine inv_toLoad h hp (Memory.wf_setFrom _ h.bufForm (by simp)) ?_ (by simp) (by simp)
    have := Memory.writtenBelow_setFrom (m := e.buf) (i := 0)
      (fun j hj => absurd hj (Nat.not_lt_zero j)) (padRest e)
    simpa using this

theorem inv_load {e e' : Engine} (h : e.Inv) (hp : e.phase = .load) (hs : loadEffect e = .next e') :
    e'.Inv := by
  obtain ⟨m, hm, rfl⟩ := loadEffect_next hs
  have hl := blockWords_length hm
  have hbusy : e.phase.busy = true := by rw [hp]; rfl
  have hnp : e.phase ≠ .pad := by rw [hp]; decide
  exact
    { lenBytes := h.lenBytes
      indexExpand := by simp
      indexZero := by simp
      finPad := by simp
      finQuiet := by simp [Phase.busy]
      finBlock := fun _ _ => h.finBlock hbusy hnp
      fillBlock := fun _ _ h0 => h.fillBlock hbusy hnp h0
      bufForm := h.bufForm
      wForm := Memory.wf_setFrom _ h.wForm (by omega)
      bufPartial := by simp
      bufFull := by simp
      wPartial := fun _ => by
        have := Memory.writtenBelow_setFrom (m := e.w) (i := 0)
          (fun j hj => absurd hj (Nat.not_lt_zero j)) m
        rw [hl] at this
        exact this
      wFull := by simp
      vSeeded := fun _ => rfl }

theorem inv_expand {e e' : Engine} (h : e.Inv) (hp : e.phase = .expand)
    (hs : expandEffect e = .next e') : e'.Inv := by
  obtain ⟨ht, x, hx, hcase⟩ := expandEffect_next hs
  have hbusy : e.phase.busy = true := by rw [hp]; rfl
  have hnp : e.phase ≠ .pad := by rw [hp]; decide
  have hform := Memory.wf_set h.wForm e.t.isLt x
  have hw := Memory.writtenBelow_set_succ (h.wPartial hp) x
  have hv := h.vSeeded (.inl hp)
  rcases hcase with ⟨h63, rfl⟩ | ⟨h63, rfl⟩
  · exact
      { lenBytes := h.lenBytes
        indexExpand := by simp
        indexZero := by simp
        finPad := by simp
        finQuiet := by simp [Phase.busy]
        finBlock := fun _ _ => h.finBlock hbusy hnp
        fillBlock := fun _ _ h0 => h.fillBlock hbusy hnp h0
        bufForm := h.bufForm
        wForm := hform
        bufPartial := by simp
        bufFull := by simp
        wPartial := by simp
        wFull := fun _ => by rw [h63] at hw ⊢; exact hw
        vSeeded := fun _ => hv }
  · have hn := nextIndex_val h63
    exact
      { lenBytes := h.lenBytes
        indexExpand := fun _ => by simp only; omega
        indexZero := fun hne => absurd hp hne
        finPad := fun hpad => absurd (hp.symm.trans hpad) (by decide)
        finQuiet := fun hq => absurd (hbusy.symm.trans hq) (by decide)
        finBlock := fun _ _ => h.finBlock hbusy hnp
        fillBlock := fun _ _ h0 => h.fillBlock hbusy hnp h0
        bufForm := h.bufForm
        wForm := hform
        bufPartial := by simp [hp]
        bufFull := by simp [hp]
        wPartial := fun _ => by simp only; rw [hn]; exact hw
        wFull := by simp [hp]
        vSeeded := fun _ => hv }

theorem inv_round {e e' : Engine} (h : e.Inv) (hp : e.phase = .round)
    (hs : roundEffect e = .next e') : e'.Inv := by
  obtain ⟨x, -, hcase⟩ := roundEffect_next hs
  have hbusy : e.phase.busy = true := by rw [hp]; rfl
  have hnp : e.phase ≠ .pad := by rw [hp]; decide
  have hw := h.wFull hp
  rcases hcase with ⟨h63, rfl⟩ | ⟨h63, rfl⟩
  · exact
      { lenBytes := h.lenBytes
        indexExpand := by simp
        indexZero := by simp
        finPad := by simp
        finQuiet := by simp [Phase.busy]
        finBlock := fun _ _ => h.finBlock hbusy hnp
        fillBlock := fun _ _ h0 => h.fillBlock hbusy hnp h0
        bufForm := h.bufForm
        wForm := h.wForm
        bufPartial := by simp
        bufFull := by simp
        wPartial := by simp
        wFull := by simp
        vSeeded := by simp }
  · exact
      { lenBytes := h.lenBytes
        indexExpand := fun hx => absurd (hp.symm.trans hx) (by decide)
        indexZero := fun _ hne => absurd hp hne
        finPad := fun hpad => absurd (hp.symm.trans hpad) (by decide)
        finQuiet := fun hq => absurd (hbusy.symm.trans hq) (by decide)
        finBlock := fun _ _ => h.finBlock hbusy hnp
        fillBlock := fun _ _ h0 => h.fillBlock hbusy hnp h0
        bufForm := h.bufForm
        wForm := h.wForm
        bufPartial := by simp [hp]
        bufFull := by simp [hp]
        wPartial := by simp [hp]
        wFull := fun _ => hw
        vSeeded := by
          rintro (hx | ⟨-, h0⟩)
          · exact absurd (hp.symm.trans hx) (by decide)
          · have := nextIndex_val h63
            rw [show nextIndex e.t = 0 from h0] at this
            exact absurd this (by simp) }

theorem inv_update {e e' : Engine} (h : e.Inv) (hp : e.phase = .update)
    (hs : updateEffect e = .next e') : e'.Inv := by
  have hcase := updateEffect_next hs
  have hbusy : e.phase.busy = true := by rw [hp]; rfl
  have hnp : e.phase ≠ .pad := by rw [hp]; decide
  have ht : e.t = 0 := h.indexZero (by simp [hp]) (by simp [hp])
  rcases hcase with ⟨hf, rfl⟩ | ⟨hf, rfl⟩ | ⟨hf, rfl⟩
  · have h0 := h.fillBlock hbusy hnp hf
    exact
      { lenBytes := h.lenBytes
        indexExpand := by simp
        indexZero := fun _ _ => ht
        finPad := by simp
        finQuiet := fun _ => hf
        finBlock := by simp [Phase.busy]
        fillBlock := by simp [Phase.busy]
        bufForm := h.bufForm
        wForm := h.wForm
        bufPartial := fun _ j hj => absurd (show j < e.fill from hj) (by omega)
        bufFull := by simp
        wPartial := by simp
        wFull := by simp
        vSeeded := by simp }
  · exact
      { lenBytes := h.lenBytes
        indexExpand := by simp
        indexZero := fun _ _ => ht
        finPad := fun _ => .inr hf
        finQuiet := by simp [Phase.busy]
        finBlock := by simp
        fillBlock := by simp
        bufForm := h.bufForm
        wForm := h.wForm
        bufPartial := by simp [hf]
        bufFull := by simp
        wPartial := by simp
        wFull := by simp
        vSeeded := by simp }
  · exact
      { lenBytes := h.lenBytes
        indexExpand := by simp
        indexZero := fun _ _ => ht
        finPad := by simp
        finQuiet := fun _ => rfl
        finBlock := by simp [Phase.busy]
        fillBlock := by simp [Phase.busy]
        bufForm := h.bufForm
        wForm := h.wForm
        bufPartial := by simp
        bufFull := by simp
        wPartial := by simp
        wFull := by simp
        vSeeded := by simp }

/-- In a state with the invariant, PAD goes on. -/
theorem padEffect_goes {e : Engine} (h : e.Inv) (hp : e.phase = .pad) :
    ∃ e', padEffect e = .next e' := by
  unfold padEffect
  rcases h.finPad hp with hf | hf <;> rw [hf]
  · simp only; split <;> exact ⟨_, rfl⟩
  · exact ⟨_, rfl⟩

/-- In a state with the invariant, LOAD goes on. -/
theorem loadEffect_goes {e : Engine} (h : e.Inv) (hp : e.phase = .load) :
    ∃ e', loadEffect e = .next e' := by
  obtain ⟨m, hm⟩ := Option.isSome_iff_exists.mp
    (blockWords_isSome (n := 16) (j := 0) (h.bufFull hp))
  simp [loadEffect, hm]

/-- In a state with the invariant, EXPAND goes on. -/
theorem expandEffect_goes {e : Engine} (h : e.Inv) (hp : e.phase = .expand) :
    ∃ e', expandEffect e = .next e' := by
  have ht := h.indexExpand hp
  obtain ⟨x, hx⟩ := Option.isSome_iff_exists.mp (expandWord_isSome (h.wPartial hp) ht)
  unfold expandEffect
  rw [if_neg (by omega), hx]
  simp only
  split <;> exact ⟨_, rfl⟩

/-- In a state with the invariant, ROUND goes on. -/
theorem roundEffect_goes {e : Engine} (h : e.Inv) (hp : e.phase = .round) :
    ∃ e', roundEffect e = .next e' := by
  obtain ⟨x, hx⟩ := Option.isSome_iff_exists.mp (h.wFull hp e.t.val e.t.isLt)
  unfold roundEffect
  rw [hx]
  simp only
  split <;> exact ⟨_, rfl⟩

/-- In a state with the invariant, UPDATE goes on. -/
theorem updateEffect_goes {e : Engine} (h : e.Inv) (hp : e.phase = .update) :
    ∃ e', updateEffect e = .next e' := by
  have hf := h.finBlock (by rw [hp]; rfl) (by rw [hp]; decide)
  unfold updateEffect
  cases hfin : e.fin with
  | pend1 => exact absurd hfin hf
  | none => exact ⟨_, rfl⟩
  | pend2 => exact ⟨_, rfl⟩
  | last => exact ⟨_, rfl⟩

end Sys2Proof.Machine
end

