-- ==== Sys2Proof/Laws/Effects.lean ====
section
/-! SUPPORT. The effects of the micro-steps as equations, and what the bytes and words they write are, element by
element. -/

namespace Sys2Proof.Machine

section Equations
variable {e : Engine}

theorem padEffect_fits (hf : e.fin = .pend1) (h : e.fill ≤ 55) : padEffect e =
    .next { e with buf := e.buf.setFrom e.fill (padTail e), fin := .last, phase := .load } := by
  simp [padEffect, hf, h]

theorem padEffect_cut (hf : e.fin = .pend1) (h : 56 ≤ e.fill) : padEffect e =
    .next { e with buf := e.buf.setFrom e.fill (padCut e), fin := .pend2, phase := .load } := by
  have : ¬ e.fill ≤ 55 := by omega
  simp [padEffect, hf, this]

theorem padEffect_rest (hf : e.fin = .pend2) : padEffect e =
    .next { e with buf := e.buf.setFrom 0 (padRest e), fin := .last, phase := .load } := by
  simp only [padEffect, hf]

theorem loadEffect_of {m : List Word} (h : blockWords e.buf 0 16 = some m) : loadEffect e =
    .next { e with w := e.w.setFrom 0 m, v := e.h, t := 16, phase := .expand } := by
  simp only [loadEffect, h]

theorem expandEffect_step {x : Word} (ht : 16 ≤ e.t.val) (h : expandWord e.w e.t.val = some x)
    (h63 : e.t ≠ 63) : expandEffect e =
    .next { e with w := e.w.set e.t.val x, t := nextIndex e.t } := by
  rw [expandEffect, if_neg (by omega), h]
  simp only [if_neg h63]

theorem expandEffect_last {x : Word} (h : expandWord e.w e.t.val = some x) (h63 : e.t = 63) :
    expandEffect e = .next { e with w := e.w.set e.t.val x, t := 0, phase := .round } := by
  rw [expandEffect, if_neg (by rw [h63]; decide), h]
  simp only [if_pos h63]

theorem roundEffect_step {x : Word} (hx : e.w.get e.t.val = some x) (h63 : e.t ≠ 63) :
    roundEffect e = .next { e with v := roundFn e.v (kAt e.t.val) x, t := nextIndex e.t } := by
  simp only [roundEffect, hx, if_neg h63]

theorem roundEffect_last {x : Word} (hx : e.w.get e.t.val = some x) (h63 : e.t = 63) :
    roundEffect e =
      .next { e with v := roundFn e.v (kAt e.t.val) x, t := 0, phase := .update } := by
  simp only [roundEffect, hx, if_pos h63]

theorem updateEffect_none (hf : e.fin = .none) :
    updateEffect e = .next { e with h := Oct.zip addMod e.h e.v, phase := .idle } := by
  simp only [updateEffect, hf]

theorem updateEffect_pend2 (hf : e.fin = .pend2) :
    updateEffect e = .next { e with h := Oct.zip addMod e.h e.v, phase := .pad } := by
  simp only [updateEffect, hf]

theorem updateEffect_last (hf : e.fin = .last) : updateEffect e =
    .next { e with h := Oct.zip addMod e.h e.v, phase := .done, fin := .none } := by
  simp only [updateEffect, hf]

end Equations

/-- PAD neither reads nor writes V. -/
theorem padEffect_next_setV {e e' : Engine} (v : Oct Word) (h : padEffect e = .next e') :
    padEffect { e with v := v } = .next { e' with v := v } := by
  have hfill : ({ e with v := v } : Engine).fill = e.fill := rfl
  have ht : padTail { e with v := v } = padTail e := by unfold padTail; rw [hfill]
  have hc : padCut { e with v := v } = padCut e := by unfold padCut; rw [hfill]
  have hr : padRest { e with v := v } = padRest e := rfl
  rcases padEffect_next h with ⟨h1, h2, rfl⟩ | ⟨h1, h2, rfl⟩ | ⟨h1, rfl⟩
  · rw [padEffect_fits (by exact h1) (by rw [hfill]; exact h2), hfill, ht]
  · rw [padEffect_cut (by exact h1) (by rw [hfill]; exact h2), hfill, hc]
  · rw [padEffect_rest (by exact h1), hr]

/-- The bytes of a length, most significant first. -/
theorem be64_get (l : BitVec 64) {k : Nat} (hk : k < 8) :
    (be64 l)[k]? = some (l.extractLsb' (56 - 8 * k) 8) := by
  interval_cases k <;> rfl

theorem padTail_get {e : Engine} (hf : e.fill ≤ 55) (j : Nat) : (padTail e)[j]? =
    if j = 0 then some 0x80
    else if j < 56 - e.fill then some 0 else (be64 e.len)[j - (56 - e.fill)]? := by
  cases j with
  | zero => rfl
  | succ j =>
    rw [padTail, List.getElem?_cons_succ, List.getElem?_append, List.length_replicate,
      if_neg (Nat.succ_ne_zero j)]
    by_cases h : j < 55 - e.fill
    · rw [if_pos h, if_pos (by omega), List.getElem?_replicate, if_pos h]
    · rw [if_neg h, if_neg (by omega)]
      congr 1; omega

theorem padCut_get (e : Engine) (j : Nat) : (padCut e)[j]? =
    if j = 0 then some 0x80 else if j < 64 - e.fill then some 0 else none := by
  cases j with
  | zero => rfl
  | succ j =>
    rw [padCut, List.getElem?_cons_succ, List.getElem?_replicate, if_neg (Nat.succ_ne_zero j)]
    exact if_congr (by omega) rfl rfl

theorem padRest_get (e : Engine) (j : Nat) : (padRest e)[j]? =
    if j < 56 then some 0 else (be64 e.len)[j - 56]? := by
  rw [padRest, List.getElem?_append, List.length_replicate]
  split
  · next h => rw [List.getElem?_replicate, if_pos h]
  · rfl

/-- A word as a number, from its four bytes. -/
theorem packWord_toNat (b0 b1 b2 b3 : Byte) : (packWord b0 b1 b2 b3).toNat =
    b0.toNat * 2 ^ 24 + b1.toNat * 2 ^ 16 + b2.toNat * 2 ^ 8 + b3.toNat := by
  have h1 := b1.isLt
  have h2 := b2.isLt
  have h3 := b3.isLt
  rw [packWord, BitVec.toNat_append, BitVec.toNat_append, BitVec.toNat_append,
    ← Nat.shiftLeft_add_eq_or_of_lt h3, ← Nat.shiftLeft_add_eq_or_of_lt h2,
    ← Nat.shiftLeft_add_eq_or_of_lt h1]
  simp only [Nat.shiftLeft_eq]
  omega

/-- Word `j` of a byte sequence given by its elements. -/
def wordAt (f : Nat → Byte) (j : Nat) : Word :=
  packWord (f (4 * j)) (f (4 * j + 1)) (f (4 * j + 2)) (f (4 * j + 3))

/-- The words that LOAD reads from a buffer all of whose bytes are written. -/
theorem blockWords_of_get {buf : Memory Byte} {f : Nat → Byte} : ∀ {n j : Nat},
    (∀ i, i < 4 * (j + n) → buf.get i = some (f i)) →
    blockWords buf j n = some ((List.range' j n).map (wordAt f)) := by
  intro n
  induction n with
  | zero => intro j _; rfl
  | succ n ih =>
    intro j h
    have h1 : blockWord buf j = some (wordAt f j) := by
      simp [blockWord, wordAt, h (4 * j) (by omega), h (4 * j + 1) (by omega),
        h (4 * j + 2) (by omega), h (4 * j + 3) (by omega)]
    have h2 := ih (j := j + 1) (fun i hi => h i (by omega))
    simp [blockWords, h1, h2, List.range'_succ]

/-- The words of a byte sequence are those of its bytes, four by four. -/
theorem wordsOf_map (f : Nat → Byte) : ∀ n j,
    wordsOf ((List.range' (4 * j) (4 * n)).map f) = (List.range' j n).map (wordAt f) := by
  intro n
  induction n with
  | zero => intro j; rfl
  | succ n ih =>
    intro j
    have h4 : 4 * (n + 1) = 4 * n + 1 + 1 + 1 + 1 := by omega
    have hj : 4 * j + 1 + 1 + 1 + 1 = 4 * (j + 1) := by omega
    rw [h4]
    simp only [List.range'_succ, List.map_cons, wordsOf]
    rw [hj, ih (j + 1)]
    rfl

/-- LOAD's words are the words of the block's byte sequence. -/
theorem blockWords_eq_wordsOf {buf : Memory Byte} {f : Nat → Byte}
    (h : ∀ i, i < 64 → buf.get i = some (f i)) :
    blockWords buf 0 16 = some (wordsOf ((List.range 64).map f)) := by
  rw [blockWords_of_get (f := f) (fun i hi => h i (by omega)), List.range_eq_range',
    show (64 : Nat) = 4 * 16 from rfl, ← wordsOf_map f 16 0]

theorem wordsOf_length : ∀ {n : Nat} {l : List Byte}, l.length = 4 * n → (wordsOf l).length = n := by
  intro n
  induction n with
  | zero => intro l h; rw [List.length_eq_zero_iff.mp h]; rfl
  | succ n ih =>
    intro l h
    match l, h with
    | b0 :: b1 :: b2 :: b3 :: rest, h =>
      simp only [wordsOf, List.length_cons] at h ⊢
      rw [ih (by omega)]

end Sys2Proof.Machine
end

