-- ==== Sys2Proof/Laws/Blocks.lean ====
section
/-! SUPPORT. The message schedule as a list, W as its prefix, and the engine inside one block: LOAD, 48 EXPAND,
64 ROUND and UPDATE follow `schedule` and `compress` step by step. -/

namespace Sys2Proof.Machine

theorem extendSchedule_length : ∀ (n : Nat) (w : List Word),
    (extendSchedule n w).length = w.length + n := by
  intro n
  induction n with
  | zero => intro w; rfl
  | succ n ih => intro w; rw [extendSchedule, ih, List.length_append]; simp; omega

/-- The words computed first stay. -/
theorem extendSchedule_prefix : ∀ (n : Nat) (w : List Word) {i : Nat}, i < w.length →
    (extendSchedule n w)[i]? = w[i]? := by
  intro n
  induction n with
  | zero => intro w i _; rfl
  | succ n ih =>
    intro w i hi
    rw [extendSchedule, ih _ (by simp; omega), List.getElem?_append, if_pos hi]

/-- The last word of a longer schedule comes from the words before it. -/
theorem extendSchedule_succ : ∀ (n : Nat) (w : List Word),
    extendSchedule (n + 1) w = extendSchedule n w ++ [nextWord (extendSchedule n w)] := by
  intro n
  induction n with
  | zero => intro w; rfl
  | succ n ih => intro w; rw [extendSchedule, ih]; rfl

/-- A longer schedule begins with a shorter one. -/
theorem extendSchedule_le {n k : Nat} (h : n ≤ k) (w : List Word) {i : Nat}
    (hi : i < w.length + n) : (extendSchedule k w)[i]? = (extendSchedule n w)[i]? := by
  induction k with
  | zero => rw [show n = 0 by omega]
  | succ k ih =>
    by_cases hk : n = k + 1
    · rw [hk]
    · rw [extendSchedule_succ, List.getElem?_append,
        if_pos (by rw [extendSchedule_length]; omega), ih (by omega)]

theorem Memory.holds_set {α : Type} {m : Memory α} {vs : List α} (h : m.holds vs) (v : α) :
    (m.set vs.length v).holds (vs ++ [v]) := by
  intro j hj
  simp only [List.length_append, List.length_singleton] at hj
  rw [Memory.get_set, List.getElem?_append]
  by_cases hv : j = vs.length
  · rw [if_pos hv, if_neg (by omega), hv]; simp
  · rw [if_neg hv, if_pos (by omega)]; exact h j (by omega)

theorem Memory.holds_setFrom {α : Type} (m : Memory α) (vs : List α) : (m.setFrom 0 vs).holds vs := by
  intro j hj
  rw [Memory.get_setFrom, if_pos (by omega), Nat.sub_zero]

/-- EXPAND computes the next word of the schedule that W holds so far. -/
theorem expandWord_of_holds {w : Memory Word} {vs : List Word} (h : w.holds vs)
    (hl : 16 ≤ vs.length) : expandWord w vs.length = some (nextWord vs) := by
  have hg : ∀ j, j < vs.length → w.get j = some (vs.getD j 0) := by
    intro j hj
    rw [h j hj, List.getD_eq_getElem?_getD, List.getElem?_eq_getElem hj]; rfl
  simp only [expandWord, hg (vs.length - 16) (by omega), hg (vs.length - 15) (by omega),
    hg (vs.length - 7) (by omega), hg (vs.length - 2) (by omega)]
  rfl

/-- The micro-step that PHASE selects, as an effect; outside the busy phases nothing. -/
def Engine.micro (e : Engine) : MicroResult :=
  match e.phase with
  | .idle => .next e
  | .pad => padEffect e
  | .load => loadEffect e
  | .expand => expandEffect e
  | .round => roundEffect e
  | .update => updateEffect e
  | .done => .next e
  | .error => .next e

theorem Engine.micro_pad {e : Engine} (h : e.phase = .pad) : e.micro = padEffect e := by
  rw [Engine.micro, h]

theorem Engine.micro_load {e : Engine} (h : e.phase = .load) : e.micro = loadEffect e := by
  rw [Engine.micro, h]

theorem Engine.micro_expand {e : Engine} (h : e.phase = .expand) : e.micro = expandEffect e := by
  rw [Engine.micro, h]

theorem Engine.micro_round {e : Engine} (h : e.phase = .round) : e.micro = roundEffect e := by
  rw [Engine.micro, h]

theorem Engine.micro_update {e : Engine} (h : e.phase = .update) : e.micro = updateEffect e := by
  rw [Engine.micro, h]

/-- The engine after the micro-step that PHASE selects, where it goes on. -/
def Engine.tick (e : Engine) : Engine :=
  match e.micro with
  | .next e' => e'
  | .stop _ => e

/-- The engine after `k` micro-steps. -/
def Engine.ticks : Nat → Engine → Engine
  | 0, e => e
  | k + 1, e => Engine.ticks k e.tick

theorem Engine.tick_of_next {e e' : Engine} (h : e.micro = .next e') : e.tick = e' := by
  rw [Engine.tick, h]

theorem Engine.ticks_add (j k : Nat) (e : Engine) : e.ticks (j + k) = (e.ticks j).ticks k := by
  induction j generalizing e with
  | zero => rw [Nat.zero_add]; rfl
  | succ j ih => rw [show j + 1 + k = j + k + 1 by omega]; exact ih e.tick

theorem Engine.ticks_succ (k : Nat) (e : Engine) : e.ticks (k + 1) = (e.ticks k).tick :=
  Engine.ticks_add k 1 e

/-- In a state with the invariant the micro-step goes on, and keeps it. -/
theorem Engine.Inv.micro {e : Engine} (h : e.Inv) : e.micro = .next e.tick ∧ e.tick.Inv := by
  have key : ∃ e', e.micro = .next e' ∧ e'.Inv := by
    unfold Engine.micro
    cases hp : e.phase with
    | idle => exact ⟨e, rfl, h⟩
    | pad => obtain ⟨e', he⟩ := padEffect_goes h hp; exact ⟨e', he, inv_pad h hp he⟩
    | load => obtain ⟨e', he⟩ := loadEffect_goes h hp; exact ⟨e', he, inv_load h hp he⟩
    | expand => obtain ⟨e', he⟩ := expandEffect_goes h hp; exact ⟨e', he, inv_expand h hp he⟩
    | round => obtain ⟨e', he⟩ := roundEffect_goes h hp; exact ⟨e', he, inv_round h hp he⟩
    | update => obtain ⟨e', he⟩ := updateEffect_goes h hp; exact ⟨e', he, inv_update h hp he⟩
    | done => exact ⟨e, rfl, h⟩
    | error => exact ⟨e, rfl, h⟩
  obtain ⟨e', he, hi⟩ := key
  rw [Engine.tick_of_next he]
  exact ⟨he, hi⟩

theorem Engine.Inv.tick {e : Engine} (h : e.Inv) : e.tick.Inv := h.micro.2

/-- Inside EXPAND: after `j` more words W holds `j` more words of the schedule. -/
theorem expand_ticks {e : Engine} {m : List Word} (hp : e.phase = .expand) (ht : e.t = 16)
    (hm : m.length = 16) (hw : e.w.holds m) : ∀ j, j < 48 → ∃ w t, t.val = 16 + j ∧
    w.holds (extendSchedule j m) ∧ e.ticks j = { e with w := w, t := t } := by
  intro j
  induction j with
  | zero => intro _; exact ⟨e.w, e.t, by rw [ht]; rfl, hw, rfl⟩
  | succ j ih =>
    intro hj
    obtain ⟨w, t, htv, hwj, he⟩ := ih (by omega)
    have hl : (extendSchedule j m).length = t.val := by rw [extendSchedule_length, hm, htv]
    have hx := expandWord_of_holds hwj (by omega)
    rw [hl] at hx
    have h63 : t ≠ 63 := fun h => by rw [h] at htv; exact absurd htv (by show ¬ (63 = _); omega)
    have hset := Memory.holds_set hwj (nextWord (extendSchedule j m))
    rw [hl, ← extendSchedule_succ] at hset
    refine ⟨_, nextIndex t, ?_, hset, ?_⟩
    · rw [nextIndex_val h63, htv]; omega
    · rw [Engine.ticks_succ, he]
      apply Engine.tick_of_next
      rw [Engine.micro_expand (by exact hp)]
      exact expandEffect_step (e := { e with w := w, t := t }) (by show 16 ≤ t.val; omega) hx h63

/-- EXPAND from its first word to its last. -/
theorem expand_all {e : Engine} {m : List Word} (hp : e.phase = .expand) (ht : e.t = 16)
    (hm : m.length = 16) (hw : e.w.holds m) : ∃ w, w.holds (schedule m) ∧
    e.ticks 48 = { e with w := w, t := 0, phase := .round } := by
  obtain ⟨w, t, htv, hwj, he⟩ := expand_ticks hp ht hm hw 47 (by omega)
  have hl : (extendSchedule 47 m).length = t.val := by rw [extendSchedule_length, hm, htv]
  have hx := expandWord_of_holds hwj (by omega)
  rw [hl] at hx
  have h63 : t = 63 := Fin.ext htv
  have hset := Memory.holds_set hwj (nextWord (extendSchedule 47 m))
  rw [hl, ← extendSchedule_succ] at hset
  refine ⟨_, hset, ?_⟩
  rw [Engine.ticks_succ, he]
  apply Engine.tick_of_next
  rw [Engine.micro_expand (by exact hp)]
  exact expandEffect_last (e := { e with w := w, t := t }) hx h63

/-- Inside ROUND: after `j` rounds V holds the working variables of `j` rounds. -/
theorem round_ticks {e : Engine} {s : Oct Word} {ws : List Word} (hp : e.phase = .round)
    (ht : e.t = 0) (hl : ws.length = 64) (hw : e.w.holds ws) (hv : e.v = s) :
    ∀ j, j < 64 → ∃ t, t.val = j ∧
    e.ticks j = { e with v := rounds s ws j, t := t } := by
  intro j
  induction j with
  | zero => intro _; exact ⟨e.t, by rw [ht]; rfl, by rw [rounds, ← hv]; rfl⟩
  | succ j ih =>
    intro hj
    obtain ⟨t, htv, he⟩ := ih (by omega)
    have h63 : t ≠ 63 := fun h => by rw [h] at htv; exact absurd htv (by show ¬ (63 = _); omega)
    have hx : e.w.get t.val = some (ws.getD j 0) := by
      rw [htv, hw j (by omega), List.getD_eq_getElem?_getD, List.getElem?_eq_getElem (by omega)]
      rfl
    refine ⟨nextIndex t, by rw [nextIndex_val h63, htv], ?_⟩
    rw [Engine.ticks_succ, he]
    apply Engine.tick_of_next
    rw [Engine.micro_round (by exact hp), rounds]
    have h := roundEffect_step (e := { e with v := rounds s ws j, t := t }) hx h63
    simp only [htv] at h
    exact h

/-- ROUND from its first round to its last. -/
theorem round_all {e : Engine} {s : Oct Word} {ws : List Word} (hp : e.phase = .round)
    (ht : e.t = 0) (hl : ws.length = 64) (hw : e.w.holds ws) (hv : e.v = s) :
    e.ticks 64 = { e with v := rounds s ws 64, t := 0, phase := .update } := by
  obtain ⟨t, htv, he⟩ := round_ticks hp ht hl hw hv 63 (by omega)
  have h63 : t = 63 := Fin.ext htv
  have hx : e.w.get t.val = some (ws.getD 63 0) := by
    rw [htv, hw 63 (by omega), List.getD_eq_getElem?_getD, List.getElem?_eq_getElem (by omega)]
    rfl
  rw [Engine.ticks_succ, he]
  apply Engine.tick_of_next
  rw [Engine.micro_round (by exact hp),
    show rounds s ws 64 = roundFn (rounds s ws 63) (kAt 63) (ws.getD 63 0) from rfl]
  have h := roundEffect_last (e := { e with v := rounds s ws 63, t := t }) hx h63
  simp only [htv] at h
  exact h

/-- From LOAD to the first round: W holds the schedule of the block in BUF, V the State. -/
theorem block_to_round {e : Engine} {f : Nat → Byte} (hp : e.phase = .load)
    (hb : ∀ i, i < 64 → e.buf.get i = some (f i)) :
    ∃ w, w.holds (schedule (wordsOf ((List.range 64).map f))) ∧
    e.ticks 49 = { e with w := w, v := e.h, t := 0, phase := .round } := by
  have hm := blockWords_eq_wordsOf hb
  have hlen : (wordsOf ((List.range 64).map f)).length = 16 := wordsOf_length (by simp)
  have hload := loadEffect_of hm
  have h1 : e.ticks 1 = { e with w := e.w.setFrom 0 (wordsOf ((List.range 64).map f)),
                                 v := e.h, t := 16, phase := .expand } := by
    apply Engine.tick_of_next
    rw [Engine.micro_load hp]
    exact hload
  obtain ⟨w, hw, h2⟩ := expand_all (e := e.ticks 1) (by rw [h1]) (by rw [h1]) hlen
    (by rw [h1]; exact Memory.holds_setFrom _ _)
  refine ⟨w, hw, ?_⟩
  rw [show 49 = 1 + 48 from rfl, Engine.ticks_add, h2, h1]

/-- From LOAD to UPDATE: V holds the working variables after all rounds. -/
theorem block_to_update {e : Engine} {f : Nat → Byte} (hp : e.phase = .load)
    (hb : ∀ i, i < 64 → e.buf.get i = some (f i)) : ∃ w, e.ticks 113 =
    { e with
      w := w
      v := rounds e.h (schedule (wordsOf ((List.range 64).map f))) 64
      t := 0
      phase := .update } := by
  obtain ⟨w, hw, h1⟩ := block_to_round hp hb
  refine ⟨w, ?_⟩
  have hlen : (schedule (wordsOf ((List.range 64).map f))).length = 64 := by
    rw [schedule, extendSchedule_length, wordsOf_length (n := 16) (by simp)]
  rw [show 113 = 49 + 64 from rfl, Engine.ticks_add,
    round_all (e := e.ticks 49) (s := e.h) (by rw [h1]) (by rw [h1]) hlen (by rw [h1]; exact hw)
      (by rw [h1]), h1]

/-- A whole block: the State becomes `compress` of itself and the block's schedule. -/
theorem block_to_end {e : Engine} {f : Nat → Byte} (h : e.Inv) (hp : e.phase = .load)
    (hb : ∀ i, i < 64 → e.buf.get i = some (f i)) : ∃ w v, e.ticks 114 =
    { e with
      w := w
      v := v
      t := 0
      h := compress e.h (schedule (wordsOf ((List.range 64).map f)))
      phase := match e.fin with
        | .none => .idle
        | .pend2 => .pad
        | .last => .done
        | .pend1 => .update
      fin := if e.fin = .last then .none else e.fin } := by
  obtain ⟨w, h1⟩ := block_to_update hp hb
  have hf := h.finBlock (by rw [hp]; rfl) (by rw [hp]; decide)
  refine ⟨w, rounds e.h (schedule (wordsOf ((List.range 64).map f))) 64, ?_⟩
  rw [show 114 = 113 + 1 from rfl, Engine.ticks_succ, h1]
  apply Engine.tick_of_next
  rw [Engine.micro_update rfl]
  cases hfin : e.fin with
  | pend1 => exact absurd hfin hf
  | none => exact updateEffect_none rfl
  | pend2 => exact updateEffect_pend2 rfl
  | last => exact updateEffect_last rfl

end Sys2Proof.Machine
end

