-- ==== Sys2Proof/Laws/Encoding.lean ====
section
/-! SUPPORT. The fields of command words as numbers, the decoder on words given by their fields, and the
reading of response words. -/

namespace Sys2Proof

theorem cmdWord_toNat (op rsv : BitVec 4) (arg : Byte) :
    (cmdWord op rsv arg).toNat = op.toNat * 4096 + rsv.toNat * 256 + arg.toNat := by
  have h1 := op.isLt
  have h2 := rsv.isLt
  have h3 := arg.isLt
  show (op ++ rsv ++ arg).toNat = _
  rw [BitVec.toNat_append, BitVec.toNat_append, ← Nat.shiftLeft_add_eq_or_of_lt h2,
    ← Nat.shiftLeft_add_eq_or_of_lt h3, Nat.shiftLeft_eq, Nat.shiftLeft_eq]
  omega

theorem opField_toNat (c : CmdWord) : (opField c).toNat = c.toNat / 4096 := by
  have := c.isLt
  simp only [opField, BitVec.extractLsb'_toNat, Nat.shiftRight_eq_div_pow]
  omega

theorem rsvField_toNat (c : CmdWord) : (rsvField c).toNat = c.toNat / 256 % 16 := by
  simp only [rsvField, BitVec.extractLsb'_toNat, Nat.shiftRight_eq_div_pow]

theorem argField_toNat (c : CmdWord) : (argField c).toNat = c.toNat % 256 := by
  simp [argField, BitVec.extractLsb'_toNat]

@[simp] theorem opField_cmdWord (op rsv : BitVec 4) (arg : Byte) :
    opField (cmdWord op rsv arg) = op := by
  apply BitVec.eq_of_toNat_eq
  rw [opField_toNat, cmdWord_toNat]
  have := rsv.isLt; have := arg.isLt
  omega

@[simp] theorem rsvField_cmdWord (op rsv : BitVec 4) (arg : Byte) :
    rsvField (cmdWord op rsv arg) = rsv := by
  apply BitVec.eq_of_toNat_eq
  rw [rsvField_toNat, cmdWord_toNat]
  have := rsv.isLt; have := arg.isLt
  omega

@[simp] theorem argField_cmdWord (op rsv : BitVec 4) (arg : Byte) :
    argField (cmdWord op rsv arg) = arg := by
  apply BitVec.eq_of_toNat_eq
  rw [argField_toNat, cmdWord_toNat]
  have := rsv.isLt; have := arg.isLt
  omega

/-- A word is put together again from its three fields. -/
theorem cmdWord_fields (c : CmdWord) : cmdWord (opField c) (rsvField c) (argField c) = c := by
  apply BitVec.eq_of_toNat_eq
  rw [cmdWord_toNat, opField_toNat, rsvField_toNat, argField_toNat]
  omega

theorem decodeCommand_cmdWord (op rsv : BitVec 4) (arg : Byte) :
    decodeCommand (cmdWord op rsv arg) =
      if rsv = 0 then decodeOp op.toNat arg else .error .reservedBits := by
  simp [decodeCommand]

/-- What a command word that decodes is made of. -/
theorem decodeOp_ok {op : BitVec 4} {arg : Byte} {i : Instr} (h : decodeOp op.toNat arg = .ok i) :
    encode i = .cmd (cmdWord op 0 arg) ∧ i.wellFormed = true := by
  have hop : op = BitVec.ofNat 4 op.toNat := by simp
  unfold decodeOp at h
  split at h <;> rename_i ho <;> try rw [ho] at hop
  · simp only [decodeBare] at h
    split at h <;> cases h
    next ha => subst ha hop; exact ⟨rfl, rfl⟩
  · cases h; subst hop; exact ⟨rfl, rfl⟩
  · simp only [decodeBare] at h
    split at h <;> cases h
    next ha => subst ha hop; exact ⟨rfl, rfl⟩
  · simp only [decodeIndexed] at h
    split at h <;> cases h
    next ha => subst hop; exact ⟨rfl, by simpa [Instr.wellFormed] using ha⟩
  · simp only [decodeIndexed] at h
    split at h <;> cases h
    next ha => subst hop; exact ⟨rfl, by simpa [Instr.wellFormed] using ha⟩
  · simp only [decodeBare] at h
    split at h <;> cases h
    next ha => subst ha hop; exact ⟨rfl, rfl⟩
  · cases h

/-- A command word that decodes is the word of the instruction it decodes to. -/
theorem decodeCommand_ok {c : CmdWord} {i : Instr} (h : decodeCommand c = .ok i) :
    encode i = .cmd c ∧ i.wellFormed = true := by
  unfold decodeCommand at h
  split at h
  · next hr =>
    have := decodeOp_ok h
    rwa [← hr, cmdWord_fields] at this
  · cases h

theorem legal_iff (c : CmdWord) : legal c = true ↔ ∃ i, decodeCommand c = .ok i := by
  unfold legal
  cases decodeCommand c <;> simp

namespace Machine

theorem isStatusRead_iff (c : CmdWord) : isStatusRead c = true ↔ c = 0x6000 := by
  constructor
  · intro h
    have hd : decodeCommand c = .ok .rdstat := by simpa [isStatusRead] using h
    have hc := (decodeCommand_ok hd).1
    simp only [encode, Code.cmd.injEq] at hc
    rw [← hc]; rfl
  · rintro rfl; decide

theorem respWord_toNat (code : RespCode) (data : Byte) :
    (respWord code data).toNat = code.bits.toNat * 4096 + data.toNat := by
  have h1 := code.bits.isLt
  have h3 := data.isLt
  show (code.bits ++ 0#4 ++ data).toNat = _
  rw [BitVec.toNat_append, BitVec.toNat_append, ← Nat.shiftLeft_add_eq_or_of_lt h3,
    ← Nat.shiftLeft_add_eq_or_of_lt (i := 4) (b := (0#4).toNat) (by decide), Nat.shiftLeft_eq, Nat.shiftLeft_eq]
  simp
  omega

/-- The code of a response word. -/
theorem respWord_code (code : RespCode) (data : Byte) :
    (respWord code data).extractLsb' 12 4 = code.bits := by
  apply BitVec.eq_of_toNat_eq
  have h1 := code.bits.isLt
  have h3 := data.isLt
  rw [BitVec.extractLsb'_toNat, respWord_toNat, Nat.shiftRight_eq_div_pow]
  omega

/-- The bits of a response word that are always zero (30_encoding.md R85). -/
theorem respWord_zero (code : RespCode) (data : Byte) :
    (respWord code data).extractLsb' 8 4 = 0 := by
  apply BitVec.eq_of_toNat_eq
  have h3 := data.isLt
  rw [BitVec.extractLsb'_toNat, respWord_toNat, Nat.shiftRight_eq_div_pow]
  simp
  omega

/-- The data byte of a response word. -/
theorem respWord_data (code : RespCode) (data : Byte) :
    (respWord code data).extractLsb' 0 8 = data := by
  apply BitVec.eq_of_toNat_eq
  have h3 := data.isLt
  rw [BitVec.extractLsb'_toNat, respWord_toNat, Nat.shiftRight_eq_div_pow]
  simp
  omega

/-- A response with code OK is its data byte, zero-extended. -/
theorem respWord_ok (data : Byte) : respWord .ok data = data.setWidth 16 := by
  apply BitVec.eq_of_toNat_eq
  have h3 := data.isLt
  rw [respWord_toNat, BitVec.toNat_setWidth]
  simp [RespCode.bits]
  omega

end Machine

end Sys2Proof
end

