-- ==== Sys2Proof/Laws/Sequencer.lean ====
section
/-! SUPPORT. The sequencer: what uses up a turn, what the next event can be, and what an instruction can do to
the port. -/

namespace Sys2Proof.Machine

/-- With a turn scheduled, that turn is used up. -/
theorem State.passTurn_cons {s : State} {t : Turn} {ts : List Turn} (h : s.turns = t :: ts) :
    s.passTurn = { s with turns := ts } := by
  simp [State.passTurn, h]

/-- With nothing scheduled and no contention, nothing is used up. -/
theorem State.passTurn_nil {s : State} (h : s.turns = []) (hc : s.contended = false) :
    s.passTurn = s := by
  simp [State.passTurn, h, hc]

/-- A busy phase selects a micro-step. -/
theorem microEvent_of_busy {p : Phase} (h : p.busy = true) :
    ∃ i, decodeMicroStep p.code = .ok i ∧ microEvent p = .run i := by
  cases p <;> simp [Phase.busy] at h <;> exact ⟨_, rfl, rfl⟩

/-- Only a busy phase selects one. -/
theorem microEvent_of_decode {p : Phase} {i : Instr} (h : decodeMicroStep p.code = .ok i) :
    p.busy = true ∧ microEvent p = .run i := by
  cases p <;> first | exact ⟨rfl, by simp [microEvent, h]⟩ | cases h

/-- Where a word's command step is enabled, the word is the head of the port and is not held. -/
theorem State.hostEnabled_iff {s : State} :
    s.hostEnabled = true ↔ ∃ c cs, s.cmds = c :: cs ∧ held c s.eng.phase = false := by
  unfold State.hostEnabled
  cases s.cmds <;> simp

theorem State.mover_host {s : State} (h : s.mover = some .host) : s.hostEnabled = true := by
  unfold State.mover at h
  cases hx : s.hostEnabled <;> cases hy : s.engineEnabled <;> simp_all

theorem State.mover_engine {s : State} (h : s.mover = some .engine) : s.eng.phase.busy = true := by
  unfold State.mover at h
  cases hx : s.hostEnabled <;> cases hy : s.engineEnabled <;> simp_all [State.engineEnabled]

theorem State.mover_none {s : State} (h : s.mover = none) :
    s.hostEnabled = false ∧ s.eng.phase.busy = false := by
  unfold State.mover at h
  cases hx : s.hostEnabled <;> cases hy : s.engineEnabled <;> simp_all [State.engineEnabled]

/-- At the end of a run nobody has a step. -/
theorem State.over_mover {s : State} (h : s.over) : s.mover = none := by
  obtain ⟨h1, h2⟩ := h
  simp [State.mover, State.hostEnabled, h1, State.engineEnabled, h2]

/-- With nobody to step, the run is over: a word is held only while the engine is busy. -/
theorem State.mover_none_iff {s : State} : s.mover = none ↔ s.over := by
  refine ⟨fun h => ?_, State.over_mover⟩
  obtain ⟨h1, h2⟩ := State.mover_none h
  refine ⟨?_, h2⟩
  cases hc : s.cmds with
  | nil => rfl
  | cons c cs =>
    have := State.hostEnabled_iff.mpr ⟨c, cs, hc, by simp [held, h2]⟩
    simp [h1] at this

theorem commandEvent_ok {c : CmdWord} {i : Instr} (h : decodeCommand c = .ok i) :
    commandEvent c = .run i := by simp [commandEvent, h]

theorem commandEvent_illegal {c : CmdWord} (h : legal c = false) : commandEvent c = .illegal := by
  unfold legal at h; unfold commandEvent
  cases hd : decodeCommand c <;> simp_all

theorem State.agentEvent_host {s : State} {c : CmdWord} {cs : List CmdWord}
    (h : s.mover = some .host) (hc : s.cmds = c :: cs) : s.agentEvent = commandEvent c := by
  simp [State.agentEvent, h, hc]

theorem State.agentEvent_engine {s : State} (h : s.mover = some .engine) :
    s.agentEvent = microEvent s.eng.phase := by
  simp [State.agentEvent, h]

/-- Where the next step runs an instruction, it is the presented command, not held, or the micro-step of a
busy phase. -/
theorem State.nextEvent_run {s : State} {i : Instr} (h : s.nextEvent = .run i) :
    s.resetDue = false ∧ s.eng.malformed = false ∧
    ((s.mover = some .host ∧
        ∃ c cs, s.cmds = c :: cs ∧ decodeCommand c = .ok i ∧ held c s.eng.phase = false) ∨
     (s.mover = some .engine ∧ s.eng.phase.busy = true ∧
        decodeMicroStep s.eng.phase.code = .ok i)) := by
  unfold State.nextEvent at h
  split at h
  · cases h
  next hr =>
  split at h
  · cases h
  next hm =>
  refine ⟨by simpa using hr, by simpa using hm, ?_⟩
  cases hmv : s.mover with
  | none => simp [State.agentEvent, hmv] at h
  | some a =>
    cases a with
    | host =>
      obtain ⟨c, cs, hc, hh⟩ := State.hostEnabled_iff.mp (State.mover_host hmv)
      rw [State.agentEvent_host hmv hc, commandEvent] at h
      refine .inl ⟨rfl, c, cs, hc, ?_, hh⟩
      cases hd : decodeCommand c <;> simp_all
    | engine =>
      have hb := State.mover_engine hmv
      obtain ⟨j, hj, hev⟩ := microEvent_of_busy hb
      rw [State.agentEvent_engine hmv, hev] at h
      cases h
      exact .inr ⟨rfl, hb, hj⟩

/-- A presented word always has an answer, and a phase a micro-step or none: no agent's step is stuck. -/
theorem State.agentEvent_ne_stuck (s : State) : s.agentEvent ≠ .stuck := by
  unfold State.agentEvent
  split
  · unfold microEvent; split <;> simp
  · split
    · unfold commandEvent; split <;> simp
    · simp
  · simp

/-- The step is stuck only in a combination that no rule produces. -/
theorem State.nextEvent_stuck {s : State} (h : s.nextEvent = .stuck) : s.eng.malformed = true := by
  unfold State.nextEvent at h
  split at h
  · cases h
  · split at h
    · assumption
    · exact absurd h (State.agentEvent_ne_stuck s)

/-- An illegal word is a presented word. -/
theorem State.nextEvent_illegal {s : State} (h : s.nextEvent = .illegal) :
    ∃ c cs, s.cmds = c :: cs ∧ legal c = false := by
  unfold State.nextEvent at h
  split at h
  · cases h
  split at h
  · cases h
  cases hmv : s.mover with
  | none => simp [State.agentEvent, hmv] at h
  | some a =>
    cases a with
    | host =>
      obtain ⟨c, cs, hc, -⟩ := State.hostEnabled_iff.mp (State.mover_host hmv)
      rw [State.agentEvent_host hmv hc, commandEvent] at h
      refine ⟨c, cs, hc, ?_⟩
      unfold legal
      cases hd : decodeCommand c <;> simp_all
    | engine =>
      obtain ⟨j, -, hev⟩ := microEvent_of_busy (State.mover_engine hmv)
      rw [State.agentEvent_engine hmv, hev] at h
      cases h

/-- `s'` is `s` with its presented word answered once, by `i`: data only with code OK, and only for a
read; the order of steps is untouched. -/
def Answered (i : Instr) (s s' : State) : Prop :=
  ∃ code data, s'.cmds = s.cmds.tail ∧ s'.resps = s.resps ++ [respWord code data] ∧
    s'.turns = s.turns ∧ s'.drawn = s.drawn ∧ (code ≠ .ok → data = 0) ∧
    (data ≠ 0 → i = .rdstat ∨ (∃ n, i = .rddig n) ∨ ∃ n, i = .rdhex n)

/-- A command that is not held is answered, whatever its effect. -/
theorem command_answered {i : Instr} {s : State} (hb : s.eng.phase.busy = false)
    (p : Phase → Bool) {f : Engine → Answer} (h1 : (f s.eng).code ≠ .ok → (f s.eng).data = 0)
    (h2 : (f s.eng).data ≠ 0 → i = .rdstat ∨ (∃ n, i = .rddig n) ∨ ∃ n, i = .rdhex n) :
    Answered i s (s.command p f) := by
  rcases State.command_cases s p f with ⟨hb', -⟩ | ⟨-, -, hc⟩ | ⟨-, -, hc⟩
  · rw [hb] at hb'; cases hb'
  · rw [hc]; exact ⟨_, _, rfl, rfl, rfl, rfl, h1, h2⟩
  · rw [hc]; exact ⟨_, _, rfl, rfl, rfl, rfl, fun _ => rfl, fun h => absurd rfl h⟩

theorem dataEffect_data (b : Byte) (e : Engine) : (dataEffect b e).data = 0 := by
  rcases dataEffect_cases b e with ⟨_, h⟩ | ⟨_, h⟩ <;> rw [h] <;> rfl

/-- A command that is not held always completes, and answers its word. -/
theorem exec_answers {i : Instr} {s : State} {c : CmdWord} (hd : decodeCommand c = .ok i)
    (hh : held c s.eng.phase = false) : ∃ s', exec i s = .next s' ∧ Answered i s s' := by
  have hwf := decodeCommand_ok hd
  have hl : legal c = true := (legal_iff c).mpr ⟨i, hd⟩
  have hb : i = .rdstat ∨ s.eng.phase.busy = false := by
    cases hs : isStatusRead c with
    | true =>
      left
      have := (isStatusRead_iff c).mp hs
      subst this; cases hd; rfl
    | false => right; simpa [held, hl, hs] using hh
  have ho : ∀ (d : Byte), RespCode.ok ≠ .ok → d = 0 := fun _ h => absurd rfl h
  have hz : ∀ {P : Prop}, (0 : Byte) ≠ 0 → P := fun h => absurd rfl h
  rcases hb with rfl | hb
  · exact ⟨_, rfl, _, _, rfl, rfl, rfl, rfl, ho _, fun _ => .inl rfl⟩
  cases i with
  | init => exact ⟨_, rfl, command_answered hb _ (ho _) hz⟩
  | data b =>
    have h0 := dataEffect_data b s.eng
    exact ⟨_, rfl, command_answered hb _ (fun _ => h0) (fun h => absurd h0 h)⟩
  | final => exact ⟨_, rfl, command_answered hb _ (ho _) hz⟩
  | rddig n =>
    have hn : n.toNat < 32 := by simpa [Instr.wellFormed] using hwf.2
    rw [show exec (.rddig n) s = .next (s.command permitsRead (rddigEffect n)) from if_pos hn]
    exact ⟨_, rfl, command_answered hb _ (f := rddigEffect n) (ho _) (fun _ => .inr (.inl ⟨n, rfl⟩))⟩
  | rdhex n =>
    have hn : n.toNat < 64 := by simpa [Instr.wellFormed] using hwf.2
    rw [show exec (.rdhex n) s = .next (s.command permitsRead (rdhexEffect n)) from if_pos hn]
    exact ⟨_, rfl, command_answered hb _ (f := rdhexEffect n) (ho _) (fun _ => .inr (.inr ⟨n, rfl⟩))⟩
  | rdstat => exact ⟨_, rfl, _, _, rfl, rfl, rfl, rfl, ho _, fun _ => .inl rfl⟩
  | pad => cases hwf.1
  | load => cases hwf.1
  | expand => cases hwf.1
  | round => cases hwf.1
  | update => cases hwf.1

/-- A micro-step that PHASE selects touches the engine only. -/
theorem micro_port {p : Phase} {i : Instr} {s s' : State} (hd : decodeMicroStep p.code = .ok i)
    (h : exec i s = .next s') : s' = { s with eng := s'.eng } := by
  cases p <;> cases hd
  all_goals (obtain ⟨_, e, _, rfl⟩ := State.micro_next.mp h; rfl)

/-- What a step can do to the engine, event by event. -/
theorem step_eng {s s' : State} (h : step s = .next s') :
    (s.nextEvent = .reset ∧ s'.eng = Engine.reset) ∨
    ((s.nextEvent = .wait ∨ s.nextEvent = .illegal) ∧ s'.eng = s.eng) ∨
    (∃ i, s.nextEvent = .run i ∧ exec i s.passTurn = .next s') := by
  rcases step_next h with ⟨he, rfl⟩ | ⟨he, rfl⟩ | ⟨he, rfl⟩ | ⟨i, he, hi⟩
  · exact .inl ⟨he, rfl⟩
  · exact .inr (.inl ⟨.inl he, by simp⟩)
  · exact .inr (.inl ⟨.inr he, by simp⟩)
  · exact .inr (.inr ⟨i, he, hi⟩)

/-- What a command can do to the engine: its own effect, or nothing. -/
theorem command_eng (s : State) (p : Phase → Bool) (f : Engine → Answer) :
    (s.eng.phase.busy = false ∧ p s.eng.phase = true ∧ (s.command p f).eng = (f s.eng).eng) ∨
    ((s.eng.phase.busy = true ∨ p s.eng.phase = false) ∧ (s.command p f).eng = s.eng) := by
  rcases State.command_cases s p f with ⟨hb, h⟩ | ⟨hb, hp, h⟩ | ⟨_, hp, h⟩ <;> rw [h]
  · exact .inr ⟨.inl hb, rfl⟩
  · exact .inl ⟨hb, hp, rfl⟩
  · exact .inr ⟨.inr hp, rfl⟩

/-- What each instruction can do to the engine: nothing, or its own effect. -/
theorem exec_eng {i : Instr} {s s' : State} (h : exec i s = .next s') :
    s'.eng = s.eng ∨
    match i with
    | .init => s.eng.phase.busy = false ∧ s'.eng = s.eng.startMessage
    | .data b => s.eng.phase = .idle ∧ s'.eng = (dataEffect b s.eng).eng
    | .final => s.eng.phase = .idle ∧ s'.eng = (finalEffect s.eng).eng
    | .rddig _ => False
    | .rdhex _ => False
    | .rdstat => False
    | .pad => s.eng.phase = .pad ∧ padEffect s.eng = .next s'.eng
    | .load => s.eng.phase = .load ∧ loadEffect s.eng = .next s'.eng
    | .expand => s.eng.phase = .expand ∧ expandEffect s.eng = .next s'.eng
    | .round => s.eng.phase = .round ∧ roundEffect s.eng = .next s'.eng
    | .update => s.eng.phase = .update ∧ updateEffect s.eng = .next s'.eng := by
  cases i with
  | init =>
    cases h
    rcases command_eng s permitsInit initEffect with ⟨a, -, c⟩ | ⟨-, b⟩
    · exact .inr ⟨a, c⟩
    · exact .inl b
  | data b =>
    cases h
    rcases command_eng s permitsMessage (dataEffect b) with ⟨-, b, c⟩ | ⟨-, b⟩
    · exact .inr ⟨by simpa [permitsMessage] using b, c⟩
    · exact .inl b
  | final =>
    cases h
    rcases command_eng s permitsMessage finalEffect with ⟨-, b, c⟩ | ⟨-, b⟩
    · exact .inr ⟨by simpa [permitsMessage] using b, c⟩
    · exact .inl b
  | rddig n =>
    simp only [exec, execRddig] at h
    split at h <;> cases h
    · rcases command_eng s permitsRead (rddigEffect n) with ⟨-, -, c⟩ | ⟨-, b⟩
      · exact .inl c
      · exact .inl b
    · exact .inl rfl
  | rdhex n =>
    simp only [exec, execRdhex] at h
    split at h <;> cases h
    · rcases command_eng s permitsRead (rdhexEffect n) with ⟨-, -, c⟩ | ⟨-, b⟩
      · exact .inl c
      · exact .inl b
    · exact .inl rfl
  | rdstat => cases h; exact .inl rfl
  | pad => obtain ⟨hp, e, he, rfl⟩ := State.micro_next.mp h; exact .inr ⟨hp, he⟩
  | load => obtain ⟨hp, e, he, rfl⟩ := State.micro_next.mp h; exact .inr ⟨hp, he⟩
  | expand => obtain ⟨hp, e, he, rfl⟩ := State.micro_next.mp h; exact .inr ⟨hp, he⟩
  | round => obtain ⟨hp, e, he, rfl⟩ := State.micro_next.mp h; exact .inr ⟨hp, he⟩
  | update => obtain ⟨hp, e, he, rfl⟩ := State.micro_next.mp h; exact .inr ⟨hp, he⟩

/-- Each busy phase selects the micro-step of its own name. -/
theorem microStep_cases {p : Phase} {i : Instr} (h : decodeMicroStep p.code = .ok i) :
    (p = .pad ∧ i = .pad) ∨ (p = .load ∧ i = .load) ∨ (p = .expand ∧ i = .expand) ∨
    (p = .round ∧ i = .round) ∨ (p = .update ∧ i = .update) := by
  cases p <;> cases h <;> simp

/-- Every move of the engine keeps the invariant. -/
theorem inv_move {e e' : Engine} (h : e.Inv) (hm : EngineMove e e') : e'.Inv := by
  cases hm with
  | stay => exact h
  | reset => exact inv_reset
  | init => exact inv_init h
  | data b hp => exact inv_data h hp b
  | final hp => exact inv_final h hp
  | pad _ hp hs => exact inv_pad h hp hs
  | load _ hp hs => exact inv_load h hp hs
  | expand _ hp hs => exact inv_expand h hp hs
  | round _ hp hs => exact inv_round h hp hs
  | update _ hp hs => exact inv_update h hp hs

/-- In a state with the invariant, the micro-step that PHASE selects goes on. -/
theorem exec_micro_goes {s : State} (h : s.eng.Inv) {i : Instr}
    (hd : decodeMicroStep s.eng.phase.code = .ok i) : ∃ e, exec i s = .next { s with eng := e } := by
  cases hp : s.eng.phase <;> rw [hp] at hd <;> cases hd
  · obtain ⟨e, he⟩ := padEffect_goes h hp; exact ⟨e, State.micro_of_next hp he⟩
  · obtain ⟨e, he⟩ := loadEffect_goes h hp; exact ⟨e, State.micro_of_next hp he⟩
  · obtain ⟨e, he⟩ := expandEffect_goes h hp; exact ⟨e, State.micro_of_next hp he⟩
  · obtain ⟨e, he⟩ := roundEffect_goes h hp; exact ⟨e, State.micro_of_next hp he⟩
  · obtain ⟨e, he⟩ := updateEffect_goes h hp; exact ⟨e, State.micro_of_next hp he⟩

end Sys2Proof.Machine
end

