-- ==== Sys2Proof/Laws/Runs.lean ====
section
/-! SUPPORT. Runs of several steps: one step first, a run in two parts, an invariant kept along a run. -/

namespace Sys2Proof.Machine

theorem run_zero (s : State) : Host.Core.run core 0 s = .next s := rfl

/-- For any machine of the interface: a run whose first step goes on. -/
theorem coreRun_succ (M : Host.Core) {s s' : M.State} (h : M.step s = .next s') (k : Nat) :
    M.run (k + 1) s = M.run k s' := by
  rw [Host.Core.run, h]

/-- For any machine of the interface: a run that ends well began with a step that went on. -/
theorem coreRun_next (M : Host.Core) {s t : M.State} {k : Nat} (h : M.run (k + 1) s = .next t) :
    ∃ s', M.step s = .next s' ∧ M.run k s' = .next t := by
  rw [Host.Core.run] at h
  cases hs : M.step s with
  | next s' => rw [hs] at h; exact ⟨s', rfl, h⟩
  | fault r => rw [hs] at h; cases h
  | refused r => rw [hs] at h; cases h

/-- For any machine of the interface: a run of one step is a step. -/
theorem coreRun_one (M : Host.Core) (s : M.State) : M.run 1 s = M.step s := by
  rw [Host.Core.run]
  cases M.step s <;> rfl

/-- A run whose first step goes on. -/
theorem run_succ_of_next {s s' : State} (h : step s = .next s') (k : Nat) :
    Host.Core.run core (k + 1) s = Host.Core.run core k s' := coreRun_succ core h k

/-- A run of one step is a step. -/
theorem run_one (s : State) : Host.Core.run core 1 s = step s := coreRun_one core s

/-- A run that ends well began with a step that went on. -/
theorem run_succ_next {s t : State} {k : Nat} (h : Host.Core.run core (k + 1) s = .next t) :
    ∃ s', step s = .next s' ∧ Host.Core.run core k s' = .next t := coreRun_next core h

/-- A run in two parts. -/
theorem run_add {j : Nat} : ∀ {s t : State} (k : Nat), Host.Core.run core j s = .next t →
    Host.Core.run core (j + k) s = Host.Core.run core k t := by
  induction j with
  | zero => intro s t k h; cases h; rw [Nat.zero_add]
  | succ j ih =>
    intro s t k h
    obtain ⟨s', hs, hr⟩ := run_succ_next h
    rw [show j + 1 + k = j + k + 1 by omega, run_succ_of_next hs, ih k hr]

end Sys2Proof.Machine
end

