-- ==== Sys2Proof/Laws/Settle.lean ====
section
/-! SUPPORT. What a sequence of words leads to, whatever the order of steps: the answer to one word, the engine
settled after its micro-steps, and the engine, the responses and the number of steps of a whole run. -/

namespace Sys2Proof.Machine

/-- The answer to a command that is not held. -/
def instrAnswer (i : Instr) (e : Engine) : Answer :=
  match i with
  | .init => initEffect e
  | .data b => if e.phase = .idle then dataEffect b e else ⟨e, .nakState, 0⟩
  | .final => if e.phase = .idle then finalEffect e else ⟨e, .nakState, 0⟩
  | .rddig n => if e.phase = .done then rddigEffect n e else ⟨e, .nakState, 0⟩
  | .rdhex n => if e.phase = .done then rdhexEffect n e else ⟨e, .nakState, 0⟩
  | .rdstat => ⟨e, .ok, status e.phase⟩
  | .pad => ⟨e, .ok, 0⟩
  | .load => ⟨e, .ok, 0⟩
  | .expand => ⟨e, .ok, 0⟩
  | .round => ⟨e, .ok, 0⟩
  | .update => ⟨e, .ok, 0⟩

/-- The answer to a word that is not held. -/
def wordAnswer (c : CmdWord) (e : Engine) : Answer :=
  match decodeCommand c with
  | .ok i => instrAnswer i e
  | .error _ => ⟨e, .nakIllegal, 0⟩

theorem not_busy_of_effective {c : CmdWord} {p : Phase} (he : effective c = true)
    (hh : held c p = false) : p.busy = false := by
  simp only [effective, Bool.and_eq_true, Bool.not_eq_true'] at he
  simpa [held, he.1, he.2] using hh

theorem effective_of_decode {c : CmdWord} {i : Instr} (hd : decodeCommand c = .ok i) :
    effective c = true ↔ i ≠ .rdstat := by
  have hl : legal c = true := (legal_iff c).mpr ⟨i, hd⟩
  simp only [effective, hl, Bool.true_and, Bool.not_eq_true']
  unfold isStatusRead
  rw [hd]
  simp

theorem command_answer {s : State} (hb : s.eng.phase.busy = false) (p : Phase → Bool)
    (f : Engine → Answer) : s.command p f =
    s.answer (if p s.eng.phase = true then f s.eng else ⟨s.eng, .nakState, 0⟩) := by
  cases hp : p s.eng.phase
  · rw [State.command_refused hb hp]; rfl
  · rw [State.command_permitted hb hp]; rfl

/-- A command that is not held gives its answer. -/
theorem exec_answer {i : Instr} {s : State} {c : CmdWord} (hd : decodeCommand c = .ok i)
    (hh : held c s.eng.phase = false) : exec i s = .next (s.answer (instrAnswer i s.eng)) := by
  have hwf := decodeCommand_ok hd
  have hb : i ≠ .rdstat → s.eng.phase.busy = false := fun hne =>
    not_busy_of_effective ((effective_of_decode hd).mpr hne) hh
  cases i with
  | init =>
    have hb := hb (by simp)
    rw [show exec .init s = .next (s.command permitsInit initEffect) from rfl,
      command_answer hb, if_pos (by simp [permitsInit, hb])]
    rfl
  | data b =>
    rw [show exec (.data b) s = .next (s.command permitsMessage (dataEffect b)) from rfl,
      command_answer (hb (by simp))]
    simp [permitsMessage, instrAnswer]
  | final =>
    rw [show exec .final s = .next (s.command permitsMessage finalEffect) from rfl,
      command_answer (hb (by simp))]
    simp [permitsMessage, instrAnswer]
  | rddig n =>
    have hn : n.toNat < 32 := by simpa [Instr.wellFormed] using hwf.2
    rw [show exec (.rddig n) s = .next (s.command permitsRead (rddigEffect n)) from if_pos hn,
      command_answer (hb (by simp))]
    simp [permitsRead, instrAnswer]
  | rdhex n =>
    have hn : n.toNat < 64 := by simpa [Instr.wellFormed] using hwf.2
    rw [show exec (.rdhex n) s = .next (s.command permitsRead (rdhexEffect n)) from if_pos hn,
      command_answer (hb (by simp))]
    simp [permitsRead, instrAnswer]
  | rdstat => rfl
  | pad => cases hwf.1
  | load => cases hwf.1
  | expand => cases hwf.1
  | round => cases hwf.1
  | update => cases hwf.1

/-- Where the host steps, the presented word is answered. -/
theorem step_host {s : State} {c : CmdWord} {cs : List CmdWord} (hm : s.eng.malformed = false)
    (hr : s.resetDue = false) (hv : s.mover = some .host) (hc : s.cmds = c :: cs) :
    step s = .next (s.passTurn.answer (wordAnswer c s.eng)) := by
  have hne := State.nextEvent_eq hr hm
  rw [State.agentEvent_host hv hc] at hne
  obtain ⟨c', cs', hc', hh⟩ := State.hostEnabled_iff.mp (State.mover_host hv)
  rw [hc] at hc'
  cases hc'
  cases hd : decodeCommand c with
  | ok i =>
    rw [commandEvent_ok hd] at hne
    have := exec_answer (s := s.passTurn) hd (by simpa using hh)
    simp [step, hne, this, wordAnswer, hd]
  | error x =>
    rw [commandEvent_illegal (by simp [legal, hd])] at hne
    have : s.passTurn.refuseIllegal = s.passTurn.answer ⟨s.passTurn.eng, .nakIllegal, 0⟩ := rfl
    simp [step, hne, wordAnswer, hd, this]

/-- Where the engine steps, it does its micro-step and the port is untouched. -/
theorem step_engine {s : State} (hi : s.eng.Inv) (hr : s.resetDue = false)
    (hv : s.mover = some .engine) : step s = .next { s.passTurn with eng := s.eng.tick } := by
  have hne := State.nextEvent_eq hr hi.notMalformed
  rw [State.agentEvent_engine hv] at hne
  obtain ⟨i, hd, hev⟩ := microEvent_of_busy (State.mover_engine hv)
  rw [hev] at hne
  obtain ⟨e, he⟩ := exec_micro_goes (s := s.passTurn) (by simpa using hi) (by simpa using hd)
  have htick : s.eng.tick = e := by
    apply Engine.tick_of_next
    rcases microStep_cases hd with ⟨hp, rfl⟩ | ⟨hp, rfl⟩ | ⟨hp, rfl⟩ | ⟨hp, rfl⟩ | ⟨hp, rfl⟩ <;>
      (obtain ⟨-, e', he', hs⟩ := State.micro_next.mp he
       have : e = e' := congrArg State.eng hs
       subst this
       simpa [Engine.micro, hp] using he')
  simp [step, hne, he, htick]

/-! ## Settling -/

theorem stepsLeft_zero {e : Engine} (h : e.phase.busy = false) : e.stepsLeft = 0 := by
  unfold Engine.stepsLeft
  cases hp : e.phase <;> simp_all [Phase.busy]

theorem stepsLeft_pos {e : Engine} (h : e.phase.busy = true) : 0 < e.stepsLeft := by
  have := e.t.isLt
  unfold Engine.stepsLeft
  cases hp : e.phase <;> simp_all [Phase.busy]
  · split <;> decide
  · omega
  · omega

/-- In a state with the invariant, each micro-step takes one off the count. -/
theorem stepsLeft_tick {e : Engine} (h : e.Inv) (hb : e.phase.busy = true) :
    e.tick.stepsLeft + 1 = e.stepsLeft := by
  have hn := h.micro.1
  generalize e.tick = e' at hn
  have hpf : ∀ g : Engine, g.len = e.len → g.fill = e.fill := by
    intro g hg; rw [Engine.fill_eq, Engine.fill_eq, hg]
  cases hp : e.phase with
  | idle => rw [hp] at hb; cases hb
  | done => rw [hp] at hb; cases hb
  | error => rw [hp] at hb; cases hb
  | pad =>
    rw [Engine.micro_pad hp] at hn
    rcases padEffect_next hn with ⟨hf, hle, rfl⟩ | ⟨hf, hle, rfl⟩ | ⟨hf, rfl⟩
    · have : ¬ 56 ≤ e.fill := by omega
      simp [Engine.stepsLeft, hp, this]
    · simp [Engine.stepsLeft, hp, hf, hle]
    · simp [Engine.stepsLeft, hp, hf]
  | load =>
    rw [Engine.micro_load hp] at hn
    obtain ⟨m, -, rfl⟩ := loadEffect_next hn
    simp only [Engine.stepsLeft, hp]
    show 129 - 16 + _ + 1 = _
    omega
  | expand =>
    rw [Engine.micro_expand hp] at hn
    obtain ⟨ht, x, -, ⟨h63, rfl⟩ | ⟨h63, rfl⟩⟩ := expandEffect_next hn
    · simp only [Engine.stepsLeft, hp, h63]
      show 65 - 0 + _ + 1 = 129 - 63 + _
      omega
    · have := nextIndex_val h63
      have := e.t.isLt
      simp only [Engine.stepsLeft, hp]
      omega
  | round =>
    rw [Engine.micro_round hp] at hn
    obtain ⟨x, -, ⟨h63, rfl⟩ | ⟨h63, rfl⟩⟩ := roundEffect_next hn
    · simp only [Engine.stepsLeft, hp, h63]
      show _ = 65 - 63 + _
      omega
    · have := nextIndex_val h63
      have := e.t.isLt
      have : e.t.val ≠ 63 := fun hh => h63 (Fin.ext hh)
      simp only [Engine.stepsLeft, hp]
      omega
  | update =>
    rw [Engine.micro_update hp] at hn
    rcases updateEffect_next hn with ⟨hf, rfl⟩ | ⟨hf, rfl⟩ | ⟨hf, rfl⟩ <;>
      simp [Engine.stepsLeft, hp, hf]

theorem stepsLeft_le {e : Engine} (h : e.Inv) : e.stepsLeft ≤ 230 := by
  have ht := h.indexExpand
  unfold Engine.stepsLeft
  cases hp : e.phase <;> simp only
  · omega
  · split <;> omega
  · split <;> omega
  · have := ht hp; split <;> omega
  · split <;> omega
  · split <;> omega
  · omega
  · omega

/-- The engine after the micro-steps of its busy period. -/
def settle (e : Engine) : Engine := e.ticks e.stepsLeft

theorem settle_quiet {e : Engine} (h : e.phase.busy = false) : settle e = e := by
  rw [settle, stepsLeft_zero h]; rfl

theorem settle_tick {e : Engine} (h : e.Inv) (hb : e.phase.busy = true) :
    settle e.tick = settle e := by
  rw [settle, settle, ← stepsLeft_tick h hb]; rfl

theorem settle_spec : ∀ (n : Nat) {e : Engine}, e.stepsLeft = n → e.Inv →
    (settle e).Inv ∧ (settle e).phase.busy = false := by
  intro n
  induction n with
  | zero =>
    intro e hn h
    have hb : e.phase.busy = false := by
      cases hb : e.phase.busy
      · rfl
      · have := stepsLeft_pos hb; omega
    rw [settle_quiet hb]
    exact ⟨h, hb⟩
  | succ n ih =>
    intro e hn h
    have hb : e.phase.busy = true := by
      cases hb : e.phase.busy
      · rw [stepsLeft_zero hb] at hn; cases hn
      · rfl
    have := stepsLeft_tick h hb
    rw [← settle_tick h hb]
    exact ih (by omega) h.tick

theorem settle_inv {e : Engine} (h : e.Inv) : (settle e).Inv := (settle_spec _ rfl h).1

theorem settle_not_busy {e : Engine} (h : e.Inv) : (settle e).phase.busy = false :=
  (settle_spec _ rfl h).2

/-! ## Feeding words -/

theorem wordAnswer_ineffective {c : CmdWord} (h : effective c = false) (e : Engine) :
    (wordAnswer c e).eng = e := by
  unfold wordAnswer
  cases hd : decodeCommand c with
  | error x => rfl
  | ok i =>
    have : i = .rdstat := by
      by_contra hne
      rw [(effective_of_decode hd).mpr hne] at h
      cases h
    subst this
    rfl

theorem wordAnswer_inv {c : CmdWord} {e : Engine} (h : e.Inv) :
    (wordAnswer c e).eng.Inv := by
  unfold wordAnswer
  cases hd : decodeCommand c with
  | error x => exact h
  | ok i =>
    cases i <;> simp only [instrAnswer]
    case init => exact inv_init h
    case data b =>
      split
      · next hp => exact inv_data h hp b
      · exact h
    case final =>
      split
      · next hp => exact inv_final h hp
      · exact h
    case rddig => split <;> exact h
    case rdhex => split <;> exact h
    all_goals exact h

/-- The engine after all words are answered and the last busy period is over. -/
def feed : List CmdWord → Engine → Engine
  | [], e => settle e
  | c :: cs, e => if effective c = true then feed cs (wordAnswer c (settle e)).eng else feed cs e

/-- The number of steps that takes. -/
def work : List CmdWord → Engine → Nat
  | [], e => e.stepsLeft
  | c :: cs, e =>
    if effective c = true then e.stepsLeft + 1 + work cs (wordAnswer c (settle e)).eng
    else 1 + work cs e

/-- The responses, but for those to RDSTAT, which depend on the order of steps. -/
def outs : List CmdWord → Engine → List (Option RespWord)
  | [], _ => []
  | c :: cs, e =>
    if effective c = true then
      some (respWord (wordAnswer c (settle e)).code (wordAnswer c (settle e)).data) ::
        outs cs (wordAnswer c (settle e)).eng
    else (if c = 0x6000 then none else some (respWord .nakIllegal 0)) :: outs cs e

theorem feed_tick {e : Engine} (h : e.Inv) (hb : e.phase.busy = true) (cs : List CmdWord) :
    feed cs e.tick = feed cs e := by
  induction cs with
  | nil => exact settle_tick h hb
  | cons c cs ih => simp only [feed, settle_tick h hb, ih]

theorem work_tick {e : Engine} (h : e.Inv) (hb : e.phase.busy = true) (cs : List CmdWord) :
    work cs e.tick + 1 = work cs e := by
  have hs := stepsLeft_tick h hb
  induction cs with
  | nil => exact hs
  | cons c cs ih =>
    simp only [work, settle_tick h hb]
    split <;> omega

theorem outs_tick {e : Engine} (h : e.Inv) (hb : e.phase.busy = true) (cs : List CmdWord) :
    outs cs e.tick = outs cs e := by
  induction cs with
  | nil => rfl
  | cons c cs ih => simp only [outs, settle_tick h hb, ih]

/-- Words are answered after the busy period, so settling first changes nothing but the count of steps. -/
theorem feed_settle : ∀ (n : Nat) {e : Engine}, e.stepsLeft = n → e.Inv → ∀ cs,
    feed cs (settle e) = feed cs e ∧ work cs (settle e) + n = work cs e ∧
    outs cs (settle e) = outs cs e := by
  intro n
  induction n with
  | zero =>
    intro e hn h cs
    have hb : e.phase.busy = false := by
      cases hb : e.phase.busy
      · rfl
      · have := stepsLeft_pos hb; omega
    rw [settle_quiet hb]
    exact ⟨rfl, rfl, rfl⟩
  | succ n ih =>
    intro e hn h cs
    have hb : e.phase.busy = true := by
      cases hb : e.phase.busy
      · rw [stepsLeft_zero hb] at hn; cases hn
      · rfl
    have h1 := stepsLeft_tick h hb
    obtain ⟨h2, h3, h4⟩ := ih (by omega) h.tick cs
    rw [settle_tick h hb] at h2 h3 h4
    have h5 := work_tick h hb cs
    exact ⟨h2.trans (feed_tick h hb cs), by omega, h4.trans (outs_tick h hb cs)⟩

/-- RDSTAT and illegal words change nothing and take one step each. -/
theorem feed_filter (cs : List CmdWord) : ∀ e,
    feed (cs.filter effective) e = feed cs e ∧
    work (cs.filter effective) e + cs.length = work cs e + (cs.filter effective).length := by
  induction cs with
  | nil => intro e; exact ⟨rfl, rfl⟩
  | cons c cs ih =>
    intro e
    by_cases hc : effective c = true
    · have h1 := (ih (wordAnswer c (settle e)).eng).1
      have h2 := (ih (wordAnswer c (settle e)).eng).2
      simp only [List.filter_cons, hc, if_true, feed, work, List.length_cons]
      exact ⟨h1, by omega⟩
    · have h1 := (ih e).1
      have h2 := (ih e).2
      simp only [List.filter_cons, hc, feed, work, List.length_cons]
      exact ⟨h1, by simp only [Bool.false_eq_true, if_false]; omega⟩

/-- A response fits what is known of it. -/
def fits (o : Option RespWord) (r : RespWord) : Prop := ∀ x, o = some x → r = x

theorem noReset_due {s : State} (h : s.noReset) : s.resetDue = false := by
  unfold State.resetDue
  cases ht : s.turns with
  | nil => rfl
  | cons t ts =>
    have : t ≠ .reset := fun hh => h (by rw [ht, hh]; simp)
    simpa using this

theorem noReset_tail {s t : State} (h : s.noReset) (ht : t.turns = s.turns.tail) : t.noReset := by
  unfold State.noReset at *
  rw [ht]
  exact fun hm => h (List.mem_of_mem_tail hm)

/-- One step of a run that is not over: the final engine is the same, one step less is left, and a word
leaves the port with a response that fits, or none does. -/
theorem step_feed {s : State} (hi : s.eng.Inv) (hr : s.noReset) (ho : ¬ s.over) :
    ∃ s', step s = .next s' ∧ s'.eng.Inv ∧ s'.noReset ∧
    feed s'.cmds s'.eng = feed s.cmds s.eng ∧ work s'.cmds s'.eng + 1 = work s.cmds s.eng ∧
    ((s'.resps = s.resps ∧ s'.cmds = s.cmds ∧ outs s'.cmds s'.eng = outs s.cmds s.eng) ∨
     ∃ o r, s'.resps = s.resps ++ [r] ∧ s.cmds.length = s'.cmds.length + 1 ∧ fits o r ∧
       outs s.cmds s.eng = o :: outs s'.cmds s'.eng) := by
  have hd := noReset_due hr
  cases hv : s.mover with
  | none => exact absurd (State.mover_none_iff.mp hv) ho
  | some a =>
    cases a with
    | engine =>
      have hb := State.mover_engine hv
      refine ⟨_, step_engine hi hd hv, hi.tick, noReset_tail hr (by simp), ?_, ?_, .inl ?_⟩
      · simpa using feed_tick hi hb s.cmds
      · simpa using work_tick hi hb s.cmds
      · simpa using outs_tick hi hb s.cmds
    | host =>
      obtain ⟨c, cs, hc, hh⟩ := State.hostEnabled_iff.mp (State.mover_host hv)
      refine ⟨_, step_host hi.notMalformed hd hv hc, ?_⟩
      cases he : effective c with
      | true =>
        have hb := not_busy_of_effective he hh
        refine ⟨wordAnswer_inv hi, noReset_tail hr (by simp), ?_, ?_, .inr ⟨?_,
          respWord (wordAnswer c s.eng).code (wordAnswer c s.eng).data, by simp, by simp [hc], ?_, ?_⟩⟩
        · simp [hc, feed, he, settle_quiet hb]
        · simp [hc, work, he, settle_quiet hb, stepsLeft_zero hb]; omega
        · exact some (respWord (wordAnswer c s.eng).code (wordAnswer c s.eng).data)
        · exact fun x hx => Option.some.inj hx
        · simp [hc, outs, he, settle_quiet hb]
      | false =>
        have heng := wordAnswer_ineffective he s.eng
        refine ⟨by simpa [heng] using hi, noReset_tail hr (by simp), ?_, ?_, .inr ⟨?_,
          respWord (wordAnswer c s.eng).code (wordAnswer c s.eng).data, by simp, by simp [hc], ?_, ?_⟩⟩
        · simp [hc, feed, he, heng]
        · simp [hc, work, he, heng]; omega
        · exact if c = 0x6000 then none else some (respWord .nakIllegal 0)
        · intro x hx
          split at hx
          · cases hx
          · next h6 =>
            cases hx
            have hl : legal c = false := by
              cases hl : legal c
              · rfl
              · have : isStatusRead c = false := by
                  cases hs : isStatusRead c
                  · rfl
                  · exact absurd ((isStatusRead_iff c).mp hs) h6
                simp [effective, hl, this] at he
            unfold legal at hl
            unfold wordAnswer
            cases hdc : decodeCommand c with
            | ok i => simp [hdc] at hl
            | error x => rfl
        · simp [hc, outs, he, heng]

/-- Once a run is over, only turns are used up. -/
theorem step_over {s : State} (hi : s.eng.Inv) (hr : s.noReset) (ho : s.over) :
    step s = .next s.passTurn := by
  have hne := State.nextEvent_eq (noReset_due hr) hi.notMalformed
  simp [step, hne, State.agentEvent, State.over_mover ho]

/-- Whatever the order of steps, a run that ends ends in the same engine, with fitting responses. -/
theorem run_feed : ∀ (k : Nat) {s t : State}, s.eng.Inv → s.noReset →
    Host.Core.run core k s = .next t → t.over →
    t.eng = feed s.cmds s.eng ∧
    ∃ rs, t.resps = s.resps ++ rs ∧ List.Forall₂ fits (outs s.cmds s.eng) rs := by
  intro k
  induction k with
  | zero =>
    intro s t hi hr h ho
    cases h
    rw [ho.1]
    exact ⟨(settle_quiet ho.2).symm, [], by simp, .nil⟩
  | succ k ih =>
    intro s t hi hr h ho
    obtain ⟨s', hs, hrun⟩ := run_succ_next h
    by_cases hso : s.over
    · rw [step_over hi hr hso] at hs
      cases hs
      have := ih (s := s.passTurn) (by simpa using hi) (noReset_tail hr (by simp)) hrun ho
      simpa using this
    · obtain ⟨s'', hs', hi', hr', hf, -, hcase⟩ := step_feed hi hr hso
      rw [hs] at hs'
      cases hs'
      obtain ⟨h1, rs, h2, h3⟩ := ih hi' hr' hrun ho
      refine ⟨h1.trans hf, ?_⟩
      rcases hcase with ⟨h4, -, h5⟩ | ⟨o, r, h4, -, h5, h6⟩
      · exact ⟨rs, by rw [h2, h4], by rw [← h5]; exact h3⟩
      · exact ⟨r :: rs, by rw [h2, h4]; simp, by rw [h6]; exact .cons h5 h3⟩

/-- Every run comes to its end, after exactly `work` steps. -/
theorem run_work : ∀ (n : Nat) {s : State}, work s.cmds s.eng = n → s.eng.Inv → s.noReset →
    ∃ t, Host.Core.run core n s = .next t ∧ t.over := by
  intro n
  induction n with
  | zero =>
    intro s hn hi hr
    refine ⟨s, rfl, ?_⟩
    by_contra ho
    obtain ⟨s', -, -, -, -, hw, -⟩ := step_feed hi hr ho
    omega
  | succ n ih =>
    intro s hn hi hr
    have ho : ¬ s.over := by
      intro ho
      rw [ho.1, work, stepsLeft_zero ho.2] at hn
      cases hn
    obtain ⟨s', hs, hi', hr', -, hw, -⟩ := step_feed hi hr ho
    obtain ⟨t, ht, hto⟩ := ih (by omega) hi' hr'
    exact ⟨t, by rw [run_succ_of_next hs, ht], hto⟩

/-- A word that is held stays held while the engine is busy. -/
theorem hostWaits_busy {s t : State} (h : s.hostWaits) (hb : s.eng.phase.busy = true)
    (hc : t.cmds = s.cmds) (ht : t.eng.phase.busy = true) : t.hostWaits := by
  unfold State.hostWaits State.hostEnabled at *
  rw [hc]
  cases hs : s.cmds with
  | nil => rfl
  | cons c cs => simp_all [held]

/-- While nothing can be accepted, a busy engine runs its micro-steps one after the other. -/
theorem run_ticks : ∀ (k : Nat) {s : State}, s.eng.Inv → s.noReset → s.hostWaits →
    k ≤ s.eng.stepsLeft → ∃ t, Host.Core.run core k s = .next t ∧ t.eng = s.eng.ticks k ∧
    t.cmds = s.cmds ∧ t.resps = s.resps := by
  intro k
  induction k with
  | zero => intro s _ _ _ _; exact ⟨s, rfl, rfl, rfl, rfl⟩
  | succ k ih =>
    intro s hi hr hw hk
    have hb : s.eng.phase.busy = true := by
      cases hb : s.eng.phase.busy
      · rw [stepsLeft_zero hb] at hk; omega
      · rfl
    have hm : s.mover = some .engine := by
      have hw : s.hostEnabled = false := hw
      simp [State.mover, hw, State.engineEnabled, hb]
    have hs := step_engine hi (noReset_due hr) hm
    have hl := stepsLeft_tick hi hb
    by_cases hb' : s.eng.tick.phase.busy = true
    · obtain ⟨t, h1, h2, h3, h4⟩ := ih (s := { s.passTurn with eng := s.eng.tick }) hi.tick
        (noReset_tail hr (by simp)) (hostWaits_busy hw hb (by simp) hb') (by show k ≤ s.eng.tick.stepsLeft; omega)
      exact ⟨t, by rw [run_succ_of_next hs, h1], h2, by simpa using h3, by simpa using h4⟩
    · have hz := stepsLeft_zero (e := s.eng.tick) (by simpa using hb')
      have hk0 : k = 0 := by omega
      subst hk0
      exact ⟨_, by rw [run_succ_of_next hs]; rfl, rfl, by simp, by simp⟩

end Sys2Proof.Machine
end

