-- ==== Sys2Proof/Laws/Absorb.lean ====
section
/-! SUPPORT. The engine follows the hash function: after any number of DATA commands H, BUF and LEN are what the
bytes accepted so far make them, and after FINAL the blocks of `pad(m)` have been folded. -/

namespace Sys2Proof.Machine

/-- The blocks of a longer prefix end with its last block. -/
theorem takeBlocks_succ : ∀ (n : Nat) (p : List Byte),
    takeBlocks (n + 1) p = takeBlocks n p ++ [wordsOf ((p.drop (64 * n)).take 64)] := by
  intro n
  induction n with
  | zero => intro p; rfl
  | succ n ih =>
    intro p
    rw [takeBlocks, ih (p.drop 64), takeBlocks, List.drop_drop, List.cons_append,
      show 64 + 64 * n = 64 * (n + 1) by omega]

/-- Whole blocks do not depend on what follows them. -/
theorem takeBlocks_append : ∀ (n : Nat) {p : List Byte} (q : List Byte), 64 * n ≤ p.length →
    takeBlocks n (p ++ q) = takeBlocks n p := by
  intro n
  induction n with
  | zero => intro p q _; rfl
  | succ n ih =>
    intro p q h
    rw [takeBlocks, takeBlocks, List.take_append_of_le_length (by omega),
      List.drop_append_of_le_length (by omega), ih q (by rw [List.length_drop]; omega)]

theorem foldBlocks_append (s : Oct Word) (bs : List (List Word)) (b : List Word) :
    foldBlocks s (bs ++ [b]) = compress (foldBlocks s bs) (schedule b) := by
  simp [foldBlocks]

/-- Sixty-four bytes of a sequence, given by their elements. -/
theorem block_eq_map {p : List Byte} {q : Nat} (h : 64 * q + 64 ≤ p.length) :
    (p.drop (64 * q)).take 64 = (List.range 64).map fun j => p.getD (64 * q + j) 0 := by
  apply List.ext_getElem?
  intro i
  by_cases hi : i < 64
  · rw [List.getElem?_take_of_lt hi, List.getElem?_drop, List.getElem?_map,
      List.getElem?_range hi, List.getElem?_eq_getElem (by omega), Option.map_some,
      List.getD_eq_getElem?_getD, List.getElem?_eq_getElem (by omega)]
    rfl
  · rw [List.getElem?_eq_none (by simp; omega), List.getElem?_eq_none (by simp; omega)]

/-- One block: where BUF holds block `q` of `p`, the 114 micro-steps fold that block. -/
theorem absorb_block {e : Engine} {p : List Byte} {q : Nat} (h : e.Inv) (hp : e.phase = .load)
    (hq : 64 * q + 64 ≤ p.length) (hb : ∀ j, j < 64 → e.buf.get j = p[64 * q + j]?)
    (hh : e.h = foldBlocks iv (takeBlocks q p)) : ∃ w v, e.ticks 114 =
    { e with
      w := w
      v := v
      t := 0
      h := foldBlocks iv (takeBlocks (q + 1) p)
      phase := match e.fin with
        | .none => .idle
        | .pend2 => .pad
        | .last => .done
        | .pend1 => .update
      fin := if e.fin = .last then .none else e.fin } := by
  obtain ⟨w, v, he⟩ := block_to_end (f := fun j => p.getD (64 * q + j) 0) h hp (fun j hj => by
    rw [hb j hj, List.getD_eq_getElem?_getD, List.getElem?_eq_getElem (by omega)]; rfl)
  refine ⟨w, v, ?_⟩
  rw [takeBlocks_succ, foldBlocks_append, block_eq_map hq, ← hh]
  exact he

/-- The engine has absorbed the bytes `p` and waits for more. -/
structure Absorbed (p : List Byte) (e : Engine) : Prop where
  inv : e.Inv
  phase : e.phase = .idle
  len : e.len.toNat = 8 * p.length
  h : e.h = foldBlocks iv (takeBlocks (p.length / 64) p)
  buf : ∀ j, j < p.length % 64 → e.buf.get j = p[64 * (p.length / 64) + j]?

theorem Absorbed.fill {p : List Byte} {e : Engine} (a : Absorbed p e) : e.fill = p.length % 64 := by
  rw [Engine.fill_eq, a.len]; omega

/-- A fresh message has absorbed nothing. -/
theorem absorbed_nil {e : Engine} (h : e.Inv) (hp : e.phase = .idle) (hl : e.len = 0)
    (hh : e.h = iv) : Absorbed [] e where
  inv := h
  phase := hp
  len := by rw [hl]; rfl
  h := hh
  buf := fun j hj => absurd hj (Nat.not_lt_zero j)

theorem wordAnswer_data (b : Byte) (e : Engine) (hp : e.phase = .idle) :
    wordAnswer (cmdWord 2 0 b) e = dataEffect b e := by
  have : decodeCommand (cmdWord 2 0 b) = .ok (.data b) := by
    rw [decodeCommand_cmdWord]; rfl
  rw [wordAnswer, this]
  exact if_pos hp

theorem wordAnswer_final (e : Engine) (hp : e.phase = .idle) :
    wordAnswer (cmdWord 3 0 0) e = finalEffect e := by
  have : decodeCommand (cmdWord 3 0 0) = .ok .final := rfl
  rw [wordAnswer, this]
  exact if_pos hp

theorem wordAnswer_init (e : Engine) : wordAnswer (cmdWord 1 0 0) e = initEffect e := rfl

/-- One DATA: the byte is absorbed, with a block's micro-steps where it fills the block. -/
theorem absorb_data {p : List Byte} {e : Engine} (a : Absorbed p e) (b : Byte)
    (hp : 8 * (p.length + 1) < 2 ^ 64) :
    (wordAnswer (cmdWord 2 0 b) e).code = .ok ∧ (wordAnswer (cmdWord 2 0 b) e).data = 0 ∧
    (wordAnswer (cmdWord 2 0 b) e).eng.stepsLeft = (if p.length % 64 = 63 then 114 else 0) ∧
    Absorbed (p ++ [b]) (settle (wordAnswer (cmdWord 2 0 b) e).eng) := by
  have hinv := inv_data a.inv a.phase b
  have hfin := a.inv.finQuiet (by rw [a.phase]; rfl)
  have hmax : e.len ≠ maxLen := by
    intro h
    have h1 := a.len
    rw [h] at h1
    have h2 : maxLen.toNat = 2 ^ 64 - 8 := rfl
    omega
  rw [wordAnswer_data b e a.phase]
  rcases dataEffect_cases b e with ⟨h, -⟩ | ⟨-, heq⟩
  · exact absurd h hmax
  rw [heq] at hinv ⊢
  have hlen := len_add_eight a.inv.lenBytes hmax
  have hfill := a.fill
  have hbuf : ∀ j, j < p.length % 64 + 1 →
      (e.buf.set e.fill b).get j = (p ++ [b])[64 * (p.length / 64) + j]? := by
    intro j hj
    rw [Memory.get_set, hfill]
    by_cases hjf : j = p.length % 64
    · rw [if_pos hjf, hjf, List.getElem?_append_right (by omega),
        show 64 * (p.length / 64) + p.length % 64 - p.length = 0 by omega]
      rfl
    · rw [if_neg hjf, List.getElem?_append_left (by omega)]
      exact a.buf j (by omega)
  refine ⟨rfl, rfl, ?_⟩
  by_cases h63 : p.length % 64 = 63
  · have hf63 : e.fill = 63 := by rw [hfill, h63]
    simp only [hf63, if_true] at hinv ⊢
    rw [hf63] at hbuf
    have hsteps : ({ e with buf := e.buf.set 63 b, len := e.len + 8, phase := .load } : Engine).stepsLeft
        = 114 := by simp [Engine.stepsLeft, hfin]
    refine ⟨by rw [if_pos h63]; exact hsteps, ?_⟩
    obtain ⟨w, v, he⟩ := absorb_block (p := p ++ [b]) (q := p.length / 64) hinv rfl
      (by simp; omega) (fun j hj => hbuf j (by omega))
      (by rw [takeBlocks_append _ _ (by omega)]; exact a.h)
    rw [settle, hsteps]
    have hs := settle_inv hinv
    rw [settle, hsteps] at hs
    rw [he] at hs ⊢
    have hd : (p ++ [b]).length / 64 = p.length / 64 + 1 := by simp; omega
    have hm : (p ++ [b]).length % 64 = 0 := by simp; omega
    exact
      { inv := hs
        phase := by simp [hfin]
        len := by simp only; rw [hlen, a.len]; simp; omega
        h := by rw [hd]
        buf := fun j hj => by omega }
  · have hf63 : e.fill ≠ 63 := by rw [hfill]; exact h63
    simp only [hf63, if_false] at hinv ⊢
    have hq : ({ e with buf := e.buf.set e.fill b, len := e.len + 8, phase := e.phase } : Engine).phase.busy
        = false := by simp [a.phase, Phase.busy]
    rw [settle_quiet hq, stepsLeft_zero hq, if_neg h63]
    have hd : (p ++ [b]).length / 64 = p.length / 64 := by simp; omega
    have hm : (p ++ [b]).length % 64 = p.length % 64 + 1 := by simp; omega
    exact ⟨rfl,
      { inv := hinv
        phase := a.phase
        len := by simp only; rw [hlen, a.len]; simp; omega
        h := by rw [hd, takeBlocks_append _ _ (by omega)]; exact a.h
        buf := fun j hj => by rw [hd]; exact hbuf j (by omega) }⟩

/-- The padded message, below the length limit. -/
def padded (m : List Byte) : List Byte :=
  m ++ [0x80] ++ List.replicate (padZeros m.length) 0 ++ be64 (BitVec.ofNat 64 (8 * m.length))

theorem pad_eq {m : List Byte} (h : 8 * m.length < 2 ^ 64) : pad m = .ok (padded m) := by
  rw [pad, if_neg (by omega)]; rfl

theorem padded_length (m : List Byte) : (padded m).length = 64 * ((m.length + 8) / 64 + 1) := by
  simp only [padded, List.length_append, List.length_singleton, List.length_replicate,
    be64_length, padZeros]
  omega

/-- The padded message byte by byte. -/
theorem padded_get (m : List Byte) (i : Nat) : (padded m)[i]? =
    if i < m.length then m[i]?
    else if i = m.length then some 0x80
    else if i < m.length + 1 + padZeros m.length then some 0
    else (be64 (BitVec.ofNat 64 (8 * m.length)))[i - (m.length + 1 + padZeros m.length)]? := by
  rw [padded]
  by_cases h1 : i < m.length
  · rw [if_pos h1, List.getElem?_append_left (by simp; omega),
      List.getElem?_append_left (by simp; omega), List.getElem?_append_left h1]
  · rw [if_neg h1]
    by_cases h2 : i = m.length
    · rw [if_pos h2, h2, List.getElem?_append_left (by simp), List.getElem?_append_left (by simp),
        List.getElem?_append_right (by omega), Nat.sub_self]
      rfl
    · rw [if_neg h2]
      by_cases h3 : i < m.length + 1 + padZeros m.length
      · rw [if_pos h3, List.getElem?_append_left (by simp; omega),
          List.getElem?_append_right (by simp; omega), List.getElem?_replicate,
          if_pos (by simp; omega)]
      · rw [if_neg h3, List.getElem?_append_right (by simp; omega)]
        simp only [List.length_append, List.length_singleton, List.length_replicate]

section PadBlocks
variable {e : Engine} {m : List Byte}

/-- The block that PAD builds where the length fits is the last block of `pad(m)`. -/
theorem padTail_block (hfill : e.fill = m.length % 64) (h55 : m.length % 64 ≤ 55)
    (hlen : e.len = BitVec.ofNat 64 (8 * m.length))
    (hb : ∀ j, j < m.length % 64 → e.buf.get j = m[64 * (m.length / 64) + j]?) :
    ∀ j, j < 64 → (e.buf.setFrom e.fill (padTail e)).get j =
      (padded m)[64 * (m.length / 64) + j]? := by
  intro j hj
  have hz : padZeros m.length = 55 - m.length % 64 := by rw [padZeros]; omega
  have hl := padTail_length (e := e) (by omega)
  rw [Memory.get_setFrom, hl, padded_get, padTail_get (by omega), hfill, hz, hlen]
  split_ifs <;> first | rfl | omega | exact hb j (by omega) | (congr 1; omega)

/-- The block that PAD builds where it does not is the last but one. -/
theorem padCut_block (hfill : e.fill = m.length % 64) (h55 : 55 < m.length % 64)
    (hb : ∀ j, j < m.length % 64 → e.buf.get j = m[64 * (m.length / 64) + j]?) :
    ∀ j, j < 64 → (e.buf.setFrom e.fill (padCut e)).get j =
      (padded m)[64 * (m.length / 64) + j]? := by
  intro j hj
  have hz : padZeros m.length = 119 - m.length % 64 := by rw [padZeros]; omega
  have hl := padCut_length e
  rw [Memory.get_setFrom, hl, padded_get, padCut_get, hfill, hz]
  split_ifs <;> first | rfl | omega | exact hb j (by omega)

/-- The block that the second PAD builds is the last. -/
theorem padRest_block (h55 : 55 < m.length % 64) (hlen : e.len = BitVec.ofNat 64 (8 * m.length)) :
    ∀ j, j < 64 → (e.buf.setFrom 0 (padRest e)).get j =
      (padded m)[64 * (m.length / 64 + 1) + j]? := by
  intro j hj
  have hz : padZeros m.length = 119 - m.length % 64 := by rw [padZeros]; omega
  rw [Memory.get_setFrom, padRest_length, padded_get, padRest_get, hz, hlen]
  split_ifs <;> first | rfl | omega | (congr 1; omega)

end PadBlocks

theorem ticks_inv : ∀ (k : Nat) {e : Engine}, e.Inv → (e.ticks k).Inv := by
  intro k
  induction k with
  | zero => intro e h; exact h
  | succ k ih => intro e h; exact ih h.tick

/-- The engine in phase PAD after FINAL, with `m` absorbed. -/
structure Closing (m : List Byte) (e : Engine) : Prop where
  inv : e.Inv
  phase : e.phase = .pad
  fin : e.fin = .pend1
  fill : e.fill = m.length % 64
  len : e.len = BitVec.ofNat 64 (8 * m.length)
  h : e.h = foldBlocks iv (takeBlocks (m.length / 64) (padded m))
  buf : ∀ j, j < m.length % 64 → e.buf.get j = m[64 * (m.length / 64) + j]?

/-- Closing in one block. -/
theorem Closing.short {m : List Byte} {e : Engine} (c : Closing m e) (h55 : m.length % 64 ≤ 55) :
    e.stepsLeft = 115 ∧ (e.ticks 115).phase = .done ∧
    (e.ticks 115).h = foldBlocks iv (blocks (padded m)) := by
  have hpl := padded_length m
  have hfits := padEffect_fits c.fin (by rw [c.fill]; exact h55)
  have hi1 := inv_pad c.inv c.phase hfits
  have ht1 := Engine.tick_of_next ((Engine.micro_pad c.phase).trans hfits)
  obtain ⟨w, v, he⟩ := absorb_block (p := padded m) (q := m.length / 64) hi1 rfl (by omega)
    (padTail_block c.fill h55 c.len c.buf) c.h
  have hstep : e.ticks 115 = e.tick.ticks 114 := rfl
  rw [hstep, ht1, he, blocks, show (padded m).length / 64 = m.length / 64 + 1 by omega]
  refine ⟨?_, rfl, rfl⟩
  have hn : ¬ 56 ≤ e.fill := by rw [c.fill]; omega
  simp [Engine.stepsLeft, c.phase, hn]

/-- Closing in two blocks. -/
theorem Closing.long {m : List Byte} {e : Engine} (c : Closing m e) (h55 : 55 < m.length % 64) :
    e.stepsLeft = 230 ∧ (e.ticks 230).phase = .done ∧
    (e.ticks 230).h = foldBlocks iv (blocks (padded m)) := by
  have hpl := padded_length m
  have hcut := padEffect_cut c.fin (by rw [c.fill]; omega)
  have hi1 := inv_pad c.inv c.phase hcut
  have ht1 := Engine.tick_of_next ((Engine.micro_pad c.phase).trans hcut)
  obtain ⟨w, v, he⟩ := absorb_block (p := padded m) (q := m.length / 64) hi1 rfl (by omega)
    (padCut_block c.fill h55 c.buf) c.h
  have hi2 := ticks_inv 114 hi1
  rw [he] at hi2
  obtain ⟨e2, he2⟩ : ∃ e2, e2 = e.ticks 115 := ⟨_, rfl⟩
  have hstep : e.ticks 115 = e.tick.ticks 114 := rfl
  rw [hstep, ht1, he] at he2
  rw [← he2] at hi2
  have hp2 : e2.phase = .pad := by rw [he2]
  have hf2 : e2.fin = .pend2 := by rw [he2]; rfl
  have hl2 : e2.len = BitVec.ofNat 64 (8 * m.length) := by rw [he2]; exact c.len
  have hh2 : e2.h = foldBlocks iv (takeBlocks (m.length / 64 + 1) (padded m)) := by rw [he2]
  have hrest := padEffect_rest hf2
  have hb3 := padRest_block (e := e2) h55 hl2
  generalize e2.buf.setFrom 0 (padRest e2) = buf3 at hrest hb3
  have hi3 := inv_pad hi2 hp2 hrest
  have ht2 := Engine.tick_of_next ((Engine.micro_pad hp2).trans hrest)
  obtain ⟨w', v', he'⟩ := absorb_block (p := padded m) (q := m.length / 64 + 1) hi3 rfl (by omega)
    hb3 hh2
  have hsplit : e.ticks 230 = (e.ticks 115).ticks 115 := Engine.ticks_add 115 115 e
  have hstep2 : e2.ticks 115 = e2.tick.ticks 114 := rfl
  rw [hsplit, hstep, ht1, he, ← he2, hstep2, ht2, he', blocks,
    show (padded m).length / 64 = m.length / 64 + 1 + 1 by omega]
  refine ⟨?_, rfl, rfl⟩
  have hge : 56 ≤ e.fill := by rw [c.fill]; omega
  simp [Engine.stepsLeft, c.phase, c.fin, hge]

/-- FINAL after `m`: the engine ends in DONE with the blocks of `pad(m)` folded. -/
theorem absorb_final {m : List Byte} {e : Engine} (a : Absorbed m e)
    (hm : 8 * m.length < 2 ^ 64) :
    (wordAnswer (cmdWord 3 0 0) e).code = .ok ∧ (wordAnswer (cmdWord 3 0 0) e).data = 0 ∧
    (wordAnswer (cmdWord 3 0 0) e).eng.stepsLeft = (if m.length % 64 ≤ 55 then 115 else 230) ∧
    (settle (wordAnswer (cmdWord 3 0 0) e).eng).phase = .done ∧
    (settle (wordAnswer (cmdWord 3 0 0) e).eng).h = foldBlocks iv (blocks (padded m)) := by
  rw [wordAnswer_final e a.phase]
  refine ⟨rfl, rfl, ?_⟩
  have c : Closing m (finalEffect e).eng :=
    { inv := inv_final a.inv a.phase
      phase := rfl
      fin := rfl
      fill := a.fill
      len := by
        apply BitVec.eq_of_toNat_eq
        rw [BitVec.toNat_ofNat, Nat.mod_eq_of_lt hm]
        exact a.len
      h := by
        rw [padded, List.append_assoc, List.append_assoc, takeBlocks_append _ _ (by omega)]
        exact a.h
      buf := a.buf }
  by_cases h55 : m.length % 64 ≤ 55
  · obtain ⟨h1, h2, h3⟩ := c.short h55
    rw [settle, h1, if_pos h55]
    exact ⟨rfl, h2, h3⟩
  · obtain ⟨h1, h2, h3⟩ := c.long (by omega)
    rw [settle, h1, if_neg h55]
    exact ⟨rfl, h2, h3⟩

theorem effective_data (b : Byte) : effective (cmdWord 2 0 b) = true := by
  have : decodeCommand (cmdWord 2 0 b) = .ok (.data b) := by rw [decodeCommand_cmdWord]; rfl
  exact (effective_of_decode this).mpr (by simp)

/-- A run of DATA words: all bytes are absorbed, every word is answered OK, and each completed block
costs 114 micro-steps. -/
theorem absorb_words (m : List Byte) : ∀ (p : List Byte) (e : Engine), Absorbed p e →
    8 * (p.length + m.length) < 2 ^ 64 → ∀ rest : List CmdWord, ∃ e', Absorbed (p ++ m) e' ∧
    feed (dataWords m ++ rest) e = feed rest e' ∧
    work (dataWords m ++ rest) e + 114 * (p.length / 64) =
      m.length + 114 * ((p.length + m.length) / 64) + work rest e' ∧
    outs (dataWords m ++ rest) e = List.replicate m.length (some 0) ++ outs rest e' := by
  induction m with
  | nil =>
    intro p e a _ rest
    exact ⟨e, by simpa using a, rfl, by simp [dataWords]; omega, rfl⟩
  | cons b m ih =>
    intro p e a hp rest
    simp only [List.length_cons] at hp ⊢
    obtain ⟨h1, h2, h3, h4⟩ := absorb_data a b (by omega)
    have hb : e.phase.busy = false := by rw [a.phase]; rfl
    obtain ⟨e', g1, g2, g3, g4⟩ := ih (p ++ [b]) _ h4 (by simp; omega) rest
    obtain ⟨f1, f2, f3⟩ :=
      feed_settle _ rfl (wordAnswer_inv (c := cmdWord 2 0 b) a.inv) (dataWords m ++ rest)
    have hcons : dataWords (b :: m) ++ rest = cmdWord 2 0 b :: (dataWords m ++ rest) := rfl
    refine ⟨e', by simpa using g1, ?_, ?_, ?_⟩
    · rw [hcons, feed, if_pos (effective_data b), settle_quiet hb, ← f1, g2]
    · rw [hcons, work, if_pos (effective_data b), settle_quiet hb, stepsLeft_zero hb]
      simp only [List.length_append, List.length_cons, List.length_nil] at g3
      rw [h3] at f2
      rw [show p.length + (m.length + 1) = p.length + (0 + 1) + m.length by omega]
      by_cases h63 : p.length % 64 = 63
      · rw [if_pos h63] at f2; omega
      · rw [if_neg h63] at f2; omega
    · rw [hcons, outs, if_pos (effective_data b), settle_quiet hb, h1, h2, ← f3, g4]
      rfl

end Sys2Proof.Machine
end

