-- ==== Sys2Proof/Laws/Digest.lean ====
section
/-! SUPPORT. The views of the State: the bytes of `serialize`, the characters of `to_hex`, one by one. -/

namespace Sys2Proof.Machine

theorem toHex_length (l : List Byte) : (toHex l).length = 2 * l.length := by
  induction l with
  | nil => rfl
  | cons b l ih => rw [toHex, List.length_cons, List.length_cons, ih, List.length_cons]; omega

/-- Two characters for each byte, the high nibble first. -/
theorem toHex_get (l : List Byte) : ∀ j,
    (toHex l)[2 * j]? = l[j]?.map (fun b => hexDigit (highNibble b)) ∧
    (toHex l)[2 * j + 1]? = l[j]?.map (fun b => hexDigit (lowNibble b)) := by
  induction l with
  | nil => intro j; simp [toHex]
  | cons b l ih =>
    intro j
    cases j with
    | zero => simp [toHex]
    | succ j =>
      have := ih j
      rw [show 2 * (j + 1) = 2 * j + 1 + 1 by omega]
      simp [toHex, this]

/-- The bytes of the State are its digest bytes. -/
theorem serialize_get (h : Oct Word) {j : Nat} (hj : j < 32) :
    (serialize h)[j]? = some (digestByte h j) := by
  interval_cases j <;> rfl

/-- The characters of the State are its hexadecimal characters. -/
theorem toHex_serialize_get (h : Oct Word) {j : Nat} (hj : j < 64) :
    (toHex (serialize h))[j]? = some (hexChar h j) := by
  have h2 := toHex_get (serialize h) (j / 2)
  rw [serialize_get h (show j / 2 < 32 by omega)] at h2
  unfold hexChar
  by_cases he : j % 2 = 0
  · rw [if_pos he]
    have := h2.1
    rwa [show 2 * (j / 2) = j by omega] at this
  · rw [if_neg he]
    have := h2.2
    rwa [show 2 * (j / 2) + 1 = j by omega] at this

/-- Every character is a digit or a lower-case letter `a` to `f`. -/
theorem hexDigit_range (n : BitVec 4) :
    0x30 ≤ (hexDigit n).toNat ∧ (hexDigit n).toNat ≤ 0x39 ∨
    0x61 ≤ (hexDigit n).toNat ∧ (hexDigit n).toNat ≤ 0x66 := by
  revert n; decide

end Sys2Proof.Machine
end

