-- ==== Sys2Proof/Laws/PerInstr.lean ====
section
/-! SUPPORT. Statements made for every instruction, one lemma per constructor: a well-formed instruction is read
back from its own code, with every operand. -/

namespace Sys2Proof.Laws

/-- Reading the code of a well-formed instruction gives that instruction (30_encoding.md R80 to R83, R88). -/
def RoundTrip.Statement (i : Instr) : Prop := i.wellFormed = true → decode (encode i) = .ok i

theorem RoundTrip.init : RoundTrip.Statement .init := fun _ => rfl

theorem RoundTrip.data (b : Byte) : RoundTrip.Statement (.data b) := fun _ => by
  show decodeCommand _ = _
  rw [decodeCommand_cmdWord]
  rfl

theorem RoundTrip.final : RoundTrip.Statement .final := fun _ => rfl

theorem RoundTrip.rddig (i : Byte) : RoundTrip.Statement (.rddig i) := fun h => by
  show decodeCommand _ = _
  rw [decodeCommand_cmdWord]
  exact if_pos (by simpa [Instr.wellFormed] using h)

theorem RoundTrip.rdhex (j : Byte) : RoundTrip.Statement (.rdhex j) := fun h => by
  show decodeCommand _ = _
  rw [decodeCommand_cmdWord]
  exact if_pos (by simpa [Instr.wellFormed] using h)

theorem RoundTrip.rdstat : RoundTrip.Statement .rdstat := fun _ => rfl

theorem RoundTrip.pad : RoundTrip.Statement .pad := fun _ => rfl

theorem RoundTrip.load : RoundTrip.Statement .load := fun _ => rfl

theorem RoundTrip.expand : RoundTrip.Statement .expand := fun _ => rfl

theorem RoundTrip.round : RoundTrip.Statement .round := fun _ => rfl

theorem RoundTrip.update : RoundTrip.Statement .update := fun _ => rfl

end Sys2Proof.Laws
end

