-- ==== Sys2Proof/Tests/Slice0.lean ====
section
/-! SUPPORT. The model's own tests: ill-formed terms, words written out from 30_encoding.md, single steps
whose expected values are those of spec/95_test_vectors.md (V and S numbers), and for every obligation with
hypotheses a named witness that meets them. -/

namespace Sys2Proof.Tests

open Sys2Proof Sys2Proof.Machine

/-- The next state, where there is one. -/
def after (o : Host.Outcome State Fault Refusal) : Option State :=
  match o with
  | .next s => some s
  | .fault _ => none
  | .refused _ => none

/-- The fault, where there is one. -/
def faultOf (o : Host.Outcome State Fault Refusal) : Option Fault :=
  match o with
  | .next _ => none
  | .fault f => some f
  | .refused _ => none

/-- The reset engine with another phase. -/
def inPhase (p : Phase) : Engine := { Engine.reset with phase := p }

/-- The reset state with another engine. -/
def withEngine (e : Engine) : State := { State.reset with eng := e }

/-- A state that presents words in a given order of steps. -/
def presenting (e : Engine) (cmds : List CmdWord) (turns : List Turn) : State :=
  { State.reset with eng := e, cmds := cmds, turns := turns }

/-- IDLE with a given length. -/
def idleAt (len : BitVec 64) : Engine := { Engine.reset with len := len }

/-- The bytes of "abc" accepted (V3.2). -/
def abcEngine : Engine :=
  { Engine.reset with buf := [(0, 0x61), (1, 0x62), (2, 0x63)], len := 0x18 }

/-- An engine in the middle of a block: every byte, word and working variable written. -/
def fullEngine (p : Phase) (t : Fin 64) (f : Finalization) : Engine :=
  { Engine.reset with
    buf := (List.range 64).map fun j => (j, 0x61)
    w := (List.range 64).map fun j => (j, BitVec.ofNat 32 j)
    v := iv
    phase := p
    t := t
    fin := f }

/-! ## Well-formedness -/

theorem test_rddig_31_well_formed : (Instr.rddig 31).wellFormed = true := by decide
theorem test_rddig_32_ill_formed : (Instr.rddig 32).wellFormed = false := by decide
theorem test_rdhex_63_well_formed : (Instr.rdhex 63).wellFormed = true := by decide
theorem test_rdhex_64_ill_formed : (Instr.rdhex 64).wellFormed = false := by decide

/-! ## Decoding: op in bits 15:12, rsv in 11:8, arg in 7:0 (30_encoding.md R80, R81), PHASE codes (R88) -/

theorem test_decode_init : decodeCommand 0b0001_0000_00000000 = .ok .init := by decide
theorem test_decode_data : decodeCommand 0b0010_0000_01100001 = .ok (.data 0x61) := by decide
theorem test_decode_final : decodeCommand 0b0011_0000_00000000 = .ok .final := by decide
theorem test_decode_rddig : decodeCommand 0b0100_0000_00011111 = .ok (.rddig 31) := by decide
theorem test_decode_rdhex : decodeCommand 0b0101_0000_00111111 = .ok (.rdhex 63) := by decide
theorem test_decode_rdstat : decodeCommand 0b0110_0000_00000000 = .ok .rdstat := by decide
theorem test_decode_pad : decodeMicroStep 0b001 = .ok .pad := by decide
theorem test_decode_load : decodeMicroStep 0b010 = .ok .load := by decide
theorem test_decode_expand : decodeMicroStep 0b011 = .ok .expand := by decide
theorem test_decode_round : decodeMicroStep 0b100 = .ok .round := by decide
theorem test_decode_update : decodeMicroStep 0b101 = .ok .update := by decide

/-- The illegal words of V7.2. -/
theorem test_illegal_words : ([0x0000, 0x0fff, 0x1001, 0x1100, 0x2161, 0x2f00, 0x3001, 0x30ff, 0x4020,
    0x40ff, 0x4100, 0x5040, 0x50ff, 0x6001, 0x6100, 0x7000, 0x8000, 0xf000, 0xffff] : List CmdWord).all
    (fun c => !legal c) = true := by decide

theorem test_illegal_names : decodeCommand 0x7000 = .error .reservedOpcode ∧
    decodeCommand 0x2161 = .error .reservedBits ∧ decodeCommand 0x1001 = .error .operandNotZero ∧
    decodeCommand 0x4020 = .error .indexOutOfRange ∧ decodeMicroStep 6 = .error .noMicroStep := by
  decide

theorem test_table_words : decodeTableWord 16 0x401f = some (.rddig 31) ∧
    decodeTableWord 8 3 = some .expand ∧ decodeTableWord 8 0 = none ∧
    decodeTableWord 16 0x2161 = none := by decide

/-! ## Word arithmetic (V2) -/

theorem test_rotr : [rotr 0x12345678 0, rotr 0x12345678 8, rotr 0x12345678 31, rotr 0x6a09e667 13,
    rotr 0x510e527f 25, rotr 0x61626380 18] =
    [0x12345678, 0x78123456, 0x2468acf0, 0x333b504f, 0x87293fa8, 0x98e01858] := by decide

theorem test_shr : [shr 0x12345678 4, shr 0xffffffff 31, shr 0x61626380 3, shr 0x00000001 1] =
    [0x01234567, 0x00000001, 0x0c2c4c70, 0x00000000] := by decide

theorem test_sigma : [smallSigma0 0x6a09e667, smallSigma1 0x6a09e667, bigSigma0 0x510e527f,
    bigSigma1 0x6a09e667] = [0xba0cf582, 0xcfe5da3c, 0x7ef0e1a9, 0x55b65510] := by decide

theorem test_ch_maj : ch 0x510e527f 0x9b05688c 0x1f83d9ab = 0x1f85c98c ∧
    maj 0x00000000 0xbb67ae85 0x3c6ef372 = 0x3866a200 ∧
    maj 0xffffffff 0xbb67ae85 0x3c6ef372 = 0xbf6ffff7 := by decide

theorem test_add_mod : addMod 0x12345678 0xedcba988 = 0 ∧ addMod 0x7fffffff 1 = 0x80000000 := by decide

/-! ## The pure functions -/

/-- V6.1, S1. -/
theorem test_hash_empty : hashOf [] = .ok (wordBytes 0xe3b0c442 ++ wordBytes 0x98fc1c14 ++
    wordBytes 0x9afbf4c8 ++ wordBytes 0x996fb924 ++ wordBytes 0x27ae41e4 ++ wordBytes 0x649b934c ++
    wordBytes 0xa495991b ++ wordBytes 0x7852b855) := by decide +kernel

/-- V6.2, S2: the document's own vector, which exercises every constant. -/
theorem test_hash_abc : hashOf [0x61, 0x62, 0x63] = .ok (wordBytes 0xba7816bf ++
    wordBytes 0x8f01cfea ++ wordBytes 0x414140de ++ wordBytes 0x5dae2223 ++ wordBytes 0xb00361a3 ++
    wordBytes 0x96177a9c ++ wordBytes 0xb410ff61 ++ wordBytes 0xf20015ad) := by decide +kernel

/-- V6.8: 56 bytes, two blocks. -/
theorem test_hash_56 : hashOf (List.replicate 56 0x61) = .ok (wordBytes 0xb35439a4 ++
    wordBytes 0xac6f0948 ++ wordBytes 0xb6d6f9e3 ++ wordBytes 0xc6af0f5f ++ wordBytes 0x590ce20f ++
    wordBytes 0x1bde7090 ++ wordBytes 0xef797068 ++ wordBytes 0x6ec6738a) := by decide +kernel

/-- V4.1: words of the "abc" schedule. -/
theorem test_schedule_abc :
    let w := schedule (0x61626380 :: (List.replicate 14 0 ++ [0x18]))
    [w.getD 16 0, w.getD 17 0, w.getD 19 0, w.getD 63 0] =
      [0x61626380, 0x000f0000, 0x600003c6, 0x12b1edeb] := by decide +kernel

/-- V5.1, round 0. -/
theorem test_round_zero : roundFn iv (kAt 0) 0x61626380 = ⟨0x5d6aebcd, 0x6a09e667, 0xbb67ae85, 0x3c6ef372,
    0xfa2a4622, 0x510e527f, 0x9b05688c, 0x1f83d9ab⟩ := by decide

/-- V5.5: K enters the rounds. -/
theorem test_compress_zero : compress ⟨0, 0, 0, 0, 0, 0, 0, 0⟩ (List.replicate 64 0) =
    ⟨0x7ca51614, 0x425c3ba8, 0xce54dd2f, 0xc2020ae7, 0xb6e574d1, 0x98136d0f, 0xae7e26cc,
     0xbf0be7a6⟩ := by decide +kernel

/-- V6.19. -/
theorem test_hexdigit : (List.range 16).map (fun n => hexDigit (BitVec.ofNat 4 n)) =
    [0x30, 0x31, 0x32, 0x33, 0x34, 0x35, 0x36, 0x37, 0x38, 0x39, 0x61, 0x62, 0x63, 0x64, 0x65, 0x66] := by
  decide

/-! ## Single steps -/

/-- P7: INIT discards the bytes accepted so far. -/
theorem test_init : (after (exec .init (presenting abcEngine [0x1000] []))).map
    (fun t => (t.eng.len, t.eng.h, t.resps, t.cmds)) = some (0, iv, [0x0000], []) := by decide

/-- V8.2: the last byte that can be accepted. -/
theorem test_data_below_limit : (after (exec (.data 0xaa)
    (presenting (idleAt 0xfffffffffffffff0) [0x20aa] []))).map
    (fun t => (t.eng.buf.get 62, t.eng.len, t.eng.phase, t.resps)) =
    some (some 0xaa, 0xfffffffffffffff8, .idle, [0x0000]) := by decide

/-- V8.1: InputTooLarge. -/
theorem test_data_too_large : (after (exec (.data 0xbb)
    (presenting (idleAt 0xfffffffffffffff8) [0x20bb] []))).map
    (fun t => (t.eng.buf.get 63, t.eng.len, t.eng.phase, t.resps, status t.eng.phase)) =
    some (none, 0xfffffffffffffff8, .error, [0x3000], 0x04) := by decide

/-- P4: the 64th byte starts a block. -/
theorem test_data_fills_block : (after (exec (.data 0x61)
    (presenting (idleAt 0x1f8) [0x2061] []))).map
    (fun t => (t.eng.buf.get 63, t.eng.len, t.eng.fill, t.eng.phase)) =
    some (some 0x61, 0x200, 0, .load) := by decide

/-- V8.4: in DONE at the limit a DATA is refused with NAK_STATE. -/
theorem test_data_priority : (after (exec (.data 0)
    (presenting { idleAt 0xfffffffffffffff8 with phase := .done } [0x2000] []))).map
    (fun t => (t.eng.phase, t.resps)) = some (.done, [0x2000]) := by decide

theorem test_final : (after (exec .final (presenting abcEngine [0x3000] []))).map
    (fun t => (t.eng.fin, t.eng.phase, t.resps)) = some (.pend1, .pad, [0x0000]) := by decide

/-- V6.18: the first, second and last digest byte. -/
theorem test_rddig :
    let e := { inPhase .done with h := ⟨0xba7816bf, 0x8f01cfea, 0, 0, 0, 0, 0, 0xf20015ad⟩ }
    [exec (.rddig 1) (withEngine e), exec (.rddig 28) (withEngine e),
      exec (.rddig 31) (withEngine e)].map (fun o => (after o).map State.resps) =
    [some [0x0078], some [0x00f2], some [0x00ad]] := by decide

/-- V6.19: the first, third and last character. -/
theorem test_rdhex :
    let e := { inPhase .done with h := ⟨0xba7816bf, 0x8f01cfea, 0, 0, 0, 0, 0, 0xf20015ad⟩ }
    [exec (.rdhex 0) (withEngine e), exec (.rdhex 2) (withEngine e),
      exec (.rdhex 63) (withEngine e)].map (fun o => (after o).map State.resps) =
    [some [0x0062], some [0x0037], some [0x0064]] := by decide

/-- V7.4: RDSTAT in the eight phases. -/
theorem test_rdstat : [Phase.idle, .pad, .load, .expand, .round, .update, .done, .error].map
    (fun p => (after (exec .rdstat (withEngine (inPhase p)))).map State.resps) =
    [some [0], some [1], some [1], some [1], some [1], some [1], some [2], some [4]] := by decide

/-- V3.2: PAD with "abc". -/
theorem test_pad_abc : (after (exec .pad (withEngine { abcEngine with phase := .pad, fin := .pend1 }))).map
    (fun t => ([2, 3, 4, 55, 56, 62, 63].map t.eng.buf.get, t.eng.fin, t.eng.phase)) =
    some ([some 0x63, some 0x80, some 0, some 0, some 0, some 0, some 0x18], .last, .load) := by
  decide +kernel

/-- V3.3: the two PAD steps of 56 bytes. -/
theorem test_pad_56 :
    (after (exec .pad (withEngine { idleAt 0x1c0 with phase := .pad, fin := .pend1 }))).map
      (fun t => ([56, 57, 63].map t.eng.buf.get, t.eng.fin, t.eng.phase)) =
      some ([some 0x80, some 0, some 0], .pend2, .load) ∧
    (after (exec .pad (withEngine { idleAt 0x1c0 with phase := .pad, fin := .pend2 }))).map
      (fun t => ([0, 55, 56, 62, 63].map t.eng.buf.get, t.eng.fin, t.eng.phase)) =
      some ([some 0, some 0, some 0, some 1, some 0xc0], .last, .load) := by decide +kernel

/-- Big-endian packing (section 1.4). -/
theorem test_load : (after (exec .load (withEngine (fullEngine .load 0 .none)))).map
    (fun t => (t.eng.w.get 0, t.eng.w.get 15, t.eng.t, t.eng.phase)) =
    some (some 0x61616161, some 0x61616161, 16, .expand) := by decide +kernel

/-- V4.1: the step with T = 17 of the "abc" block. -/
theorem test_expand : (after (exec .expand (withEngine { inPhase .expand with
      w := [(0, 0x61626380), (1, 0), (2, 0), (10, 0), (15, 0x18)], t := 17 }))).map
    (fun t => (t.eng.w.get 17, t.eng.t, t.eng.phase)) =
    some (some 0x000f0000, 18, .expand) := by decide +kernel

theorem test_expand_last : (after (exec .expand (withEngine (fullEngine .expand 63 .none)))).map
    (fun t => (t.eng.t, t.eng.phase)) = some (0, .round) := by decide +kernel

/-- V5.1, round 0. -/
theorem test_round : (after (exec .round (withEngine { inPhase .round with
      w := [(0, 0x61626380)], v := iv }))).map (fun t => (t.eng.v.x0, t.eng.v.x4, t.eng.t)) =
    some (0x5d6aebcd, 0xfa2a4622, 1) := by decide +kernel

theorem test_round_last : (after (exec .round (withEngine (fullEngine .round 63 .none)))).map
    (fun t => (t.eng.t, t.eng.phase)) = some (0, .update) := by decide +kernel

theorem test_update : (after (exec .update (withEngine (fullEngine .update 0 .last)))).map
    (fun t => (t.eng.h.x0, t.eng.fin, t.eng.phase)) = some (0xd413ccce, .none, .done) := by decide +kernel

/-- V8.4: in a busy phase an illegal word is answered at once, and a DATA is held. -/
theorem test_illegal_beats_hold :
    (after (step (presenting (inPhase .load) [0x2161] [.take .host]))).map
      (fun t => (t.resps, t.cmds, t.eng.phase)) = some ([0x1000], [], .load) ∧
    (presenting (inPhase .load) [0x2061] []).hostEnabled = false := by decide +kernel

/-- 10_state.md R38: an element nothing has written is not read as zero. -/
theorem test_absent_faults :
    faultOf (exec .load (withEngine (inPhase .load))) = some .unwrittenCell ∧
    faultOf (exec .round (withEngine (inPhase .round))) = some .unwrittenCell := by decide +kernel

/-- Each row's word, placed by `withFetchWord` after reset, is run by the very next step. -/
theorem test_first_step_runs_commands :
    [0x1000, 0x2061, 0x3000, 0x4000, 0x5000, 0x6000].map (fun w =>
      (after (step (State.reset.withFetchWord 16 w))).map State.resps) =
    [some [0x0000], some [0x0000], some [0x0000], some [0x2000], some [0x2000], some [0x0000]] := by
  decide +kernel

theorem test_first_step_runs_micro_steps :
    [1, 2, 3, 4, 5].map (fun w =>
      (after (step (State.reset.withFetchWord 8 w))).map fun t => (t.eng.phase, t.eng.t)) =
    [some (.load, 0), some (.expand, 16), some (.expand, 17), some (.round, 1), some (.idle, 0)] := by
  decide +kernel

/-- P1's text, assembled (30_encoding.md R93, R94). -/
theorem test_assemble : assemble ["INIT            ; 1000".toList, "DATA 'a'".toList, "DATA 0xff".toList,
    "FINAL".toList, "RDDIG 31".toList, "REP 2, 0x61".toList, ".word 0x2161".toList,
    "MSG \"a\\x00\"".toList] =
    some [0x1000, 0x2061, 0x20ff, 0x3000, 0x401f, 0x2061, 0x2061, 0x2161, 0x2061, 0x2000] := by
  decide +kernel

theorem test_assemble_range_error : assemble ["RDDIG 32".toList] = none ∧
    assemble ["RDHEX 64".toList] = none ∧ assemble ["DATA 256".toList] = none := by decide +kernel

/-! ## Witnesses: for each obligation with hypotheses, states and operands that meet them, clause by clause -/

theorem witness_RotateRightMovesBits : (31 : Nat) < 32 ∧ (31 : Fin 32) ≠ 0 ∧ rotr 0x80000000 31 = 0x00000001 := by
  decide

theorem witness_ShiftRightFillsZero : (31 : Nat) < 32 ∧ (31 : Nat) + (0 : Fin 32).val ≤ 31 ∧
    ¬ (31 : Nat) + (1 : Fin 32).val ≤ 31 := by decide

theorem witness_SigmaFunctions : (0 : Nat) < 32 ∧ (31 : Nat) < 32 ∧
    (smallSigma0 0x00000400).getLsbD 7 = true := by decide

theorem witness_ChooseAndMajority : (31 : Nat) < 32 ∧
    (maj 0x80000000 0x80000000 0).getLsbD 31 = true := by decide

theorem witness_ConstantsAreRootsOfPrimes : (0 : Nat) < 64 ∧ (63 : Nat) < 64 ∧
    kAt 0 = 0x428a2f98 ∧ kAt 63 = 0xc67178f2 := by decide

theorem witness_BitwiseOperations : (31 : Nat) < 32 ∧ (wordNot 0x80000000).getLsbD 31 = false := by decide

theorem witness_LegalWordsAreTheTable : (1 : BitVec 4) ≠ 0 ∧ legal (cmdWord 1 1 0) = false := by decide

theorem witness_DecodeOfEncode : (Instr.data 0xff).wellFormed = true ∧ (Instr.rddig 31).wellFormed = true ∧
    (Instr.rdhex 63).wellFormed = true ∧ decode (encode (.rdhex 63)) = .ok (.rdhex 63) := by decide

theorem witness_EncodeOfDecode : decode (.cmd 0x503f) = .ok (.rdhex 63) ∧ decode (.uop 5) = .ok .update := by
  decide

theorem witness_FetchWordRunsNext : decodeTableWord 16 0x503f = some (.rdhex 63) ∧
    decodeTableWord 8 1 = some .pad ∧ decodeTableWord 8 5 = some .update := by decide

/-- Clause by clause: an illegal word, RDSTAT, a held word, a word to refuse, a word to execute. -/
theorem witness_CommandStepTestsInOrder :
    let s := fun (p : Phase) (c : CmdWord) => presenting (inPhase p) [c] [.take .host]
    ((s .load 0x2161).cmds = [0x2161] ∧ (s .load 0x2161).turns = [.take .host] ∧
      (s .load 0x2161).eng.malformed = false ∧ legal 0x2161 = false) ∧
    (s .load 0x6000).eng.malformed = false ∧
    (legal 0x2061 = true ∧ (0x2061 : CmdWord) ≠ 0x6000 ∧ (s .load 0x2061).eng.phase.busy = true) ∧
    ((s .done 0x2061).eng.phase.busy = false ∧ (s .done 0x2061).eng.phase ≠ .idle ∧
      decodeCommand 0x2061 = .ok (.data 0x61) ∧
      (after (step (s .done 0x2061))).map State.resps = some [0x2000]) ∧
    (s .idle 0x2061).eng.phase.busy = false ∧
    decodeCommand 0x401f = .ok (.rddig 31) ∧ (s .done 0x401f).eng.phase.busy = false := by decide

theorem witness_StepRunsDecodedInstruction :
    let s := presenting (inPhase .idle) [0x1000] []
    let u := presenting (fullEngine .load 0 .none) [0x1000] []
    (s.turns = [] ∧ s.eng.malformed = false ∧ decodeCommand 0x1000 = .ok .init ∧
      s.eng.phase.busy = false) ∧
    (u.turns = [] ∧ u.eng.malformed = false ∧ decodeMicroStep u.eng.phase.code = .ok .load ∧
      u.hostEnabled = false) := by decide

theorem witness_WaitsWhenNothingEnabled :
    let s := withEngine (inPhase .done)
    s.cmds = [] ∧ s.eng.phase.busy = false ∧ s.eng.malformed = false ∧ s.resetDue = false := by decide

/-- A word accepted with data, and a step that accepts none. -/
theorem witness_OneResponsePerAcceptedWord :
    (after (step (presenting (inPhase .done) [0x4000] []))).map State.resps = some [0x006a] ∧
    (after (step (presenting (fullEngine .load 0 .none) [0x4000] []))).map State.resps = some [] := by
  decide +kernel

theorem witness_ResetInAnyState :
    let s := presenting { inPhase .pad with fin := .last } [0x4000] [.reset]
    s.turns = [.reset] ∧ s.eng.malformed = true ∧ after (step s) =
      some { State.reset with cmds := [0x4000] } := by decide

/-- A held DATA, FINAL, RDDIG, RDHEX and INIT. -/
theorem witness_HeldWordSurvivesReset : ([0x20ff, 0x3000, 0x401f, 0x503f, 0x1000] : List CmdWord).all
    (fun c => held c .load && held c .update) = true ∧ (0x20ff : CmdWord) = cmdWord 2 0 0xff ∧
    (0x401f : CmdWord) = cmdWord 4 0 31 ∧ (0x503f : CmdWord) = cmdWord 5 0 63 := by decide

/-- Every command's busy clause, in the first and the last busy phase. -/
theorem witness_busy_clauses : (inPhase .pad).phase.busy = true ∧ (inPhase .update).phase.busy = true ∧
    (after (exec (.data 1) (withEngine (inPhase .update)))) = some (withEngine (inPhase .update)) := by
  decide

theorem witness_InitStartsMessage : [Phase.idle, .done, .error].all (fun p => !p.busy) = true ∧
    (after (exec .init (withEngine (inPhase .error)))).map (fun t => (t.eng.phase, t.resps)) =
      some (.idle, [0x0000]) := by decide

/-- The limit, the last byte below it, a full block, an empty one. -/
theorem witness_DataAppendsByte :
    (idleAt 0xfffffffffffffff8).phase = .idle ∧ (idleAt 0xfffffffffffffff0).len ≠ 0xfffffffffffffff8 ∧
    (idleAt 0x1f8).len.extractLsb' 3 6 = 63 ∧ (idleAt 0).len.extractLsb' 3 6 = 0 ∧
    (after (exec (.data 7) (withEngine (inPhase .error)))).map State.resps = some [0x2000] := by decide

theorem witness_InputTooLargeOnlyFromData :
    let s := presenting (idleAt 0xfffffffffffffff8) [0x20bb] []
    s.eng.phase = .idle ∧ s.eng.len = 0xfffffffffffffff8 ∧
    (after (step s)).map (fun t => t.eng.phase) = some .error ∧
    (31 : Byte).toNat < 32 ∧ (63 : Byte).toNat < 64 ∧
    [exec (.data 0) (withEngine (inPhase .error)), exec .final (withEngine (inPhase .error)),
      exec (.rddig 31) (withEngine (inPhase .error)),
      exec (.rdhex 63) (withEngine (inPhase .error))].map (fun o => (after o).map State.resps) =
    [some [0x2000], some [0x2000], some [0x2000], some [0x2000]] := by decide

theorem witness_FinalOpensPadding :
    [Phase.idle, .done, .error].map (fun p =>
      (after (exec .final (withEngine (inPhase p)))).map fun t => (t.resps, t.eng.phase)) =
    [some ([0x0000], .pad), some ([0x2000], .done), some ([0x2000], .error)] := by decide

theorem witness_ReadDigestByte : (31 : Byte).toNat < 32 ∧
    [Phase.idle, .done, .error].map (fun p =>
      (after (exec (.rddig 31) (withEngine (inPhase p)))).map State.resps) =
    [some [0x2000], some [0x0019], some [0x2000]] := by decide

theorem witness_ReadHexCharacter : (63 : Byte).toNat < 64 ∧
    [Phase.idle, .done, .error].map (fun p =>
      (after (exec (.rdhex 63) (withEngine (inPhase p)))).map State.resps) =
    [some [0x2000], some [0x0039], some [0x2000]] := by decide

theorem witness_IndexOutOfRangeIsIllegal : 32 ≤ (32 : Byte).toNat ∧ 64 ≤ (64 : Byte).toNat ∧
    [exec (.rddig 32) (withEngine (inPhase .done)), exec (.rdhex 64) (withEngine (inPhase .load)),
      exec (.rddig 255) (withEngine (inPhase .error))].map (fun o => (after o).map State.resps) =
    [some [0x1000], some [0x1000], some [0x1000]] := by decide

theorem witness_NotPermittedLeavesNoTrace :
    (inPhase .done).phase = .done ∧ (inPhase .error).phase = .error ∧ (31 : Byte).toNat < 32 ∧
    (63 : Byte).toNat < 64 := by decide

theorem witness_HeldWordStaysPresented :
    let s := presenting (fullEngine .load 0 .none) [0x4000] [.take .host]
    held 0x4000 s.eng.phase = true ∧ s.resetDue = false ∧
    (after (step s)).map (fun t => (t.cmds, t.resps, t.eng.phase)) =
      some ([0x4000], [], .expand) := by decide +kernel

/-- fill 0 and 55 take the first case, fill 56 and 63 the second; PEND2 the third; NONE and LAST stop. -/
theorem witness_PadBuildsBlock :
    let e := fun (n : Nat) (f : Finalization) =>
      ({ inPhase .pad with len := BitVec.ofNat 64 (8 * n), fin := f } : Engine)
    [e 0 .pend1, e 55 .pend1, e 56 .pend1, e 63 .pend1, e 56 .pend2].map (fun g =>
      (g.fill, (after (exec .pad (withEngine g))).map fun t => t.eng.fin)) =
    [(0, some .last), (55, some .last), (56, some .pend2), (63, some .pend2), (56, some .last)] ∧
    [e 0 .none, e 0 .last].map (fun g => faultOf (exec .pad (withEngine g))) =
    [some .malformedState, some .malformedState] := by decide +kernel

/-- All 64 bytes of BUF written. -/
theorem witness_LoadTakesBlock : (fullEngine .load 0 .none).phase = .load ∧
    ∀ j, j < 64 → (fullEngine .load 0 .none).buf.get j = some 0x61 := by decide +kernel

/-- The first and the last index. -/
theorem witness_ExpandComputesWord :
    [(fullEngine .expand 16 .none), (fullEngine .expand 63 .none)].map (fun e =>
      (decide (16 ≤ e.t.val), e.w.get (e.t.val - 16), e.w.get (e.t.val - 2))) =
    [(true, some 0, some 14), (true, some 47, some 61)] := by decide +kernel

/-- The first and the last round. -/
theorem witness_RoundTransformsVariables :
    [(fullEngine .round 0 .none), (fullEngine .round 63 .none)].map (fun e =>
      (e.v.x0, e.v.x7, e.w.get e.t.val)) =
    [(0x6a09e667, 0x5be0cd19, some 0), (0x6a09e667, 0x5be0cd19, some 63)] := by
  decide +kernel

/-- The three continuations, and the stop. -/
theorem witness_UpdateAddsAndContinues :
    [Finalization.none, .pend2, .last].map (fun f =>
      (after (exec .update (withEngine (fullEngine .update 0 f)))).map fun t => (t.eng.phase, t.eng.fin)) =
    [some (.idle, .none), some (.pad, .pend2), some (.done, .none)] ∧
    faultOf (exec .update (withEngine (fullEngine .update 0 .pend1))) = some .malformedState := by
  decide +kernel

theorem witness_AbsentElementFaults :
    (inPhase .load).buf.get 63 = none ∧
    ({ inPhase .expand with t := 16 } : Engine).w.get 0 = none ∧ 16 ≤ (16 : Fin 64).val ∧
    (inPhase .round).w.get 0 = none := by decide

/-- Each combination, one that is well formed, and a well-formed one that stops with the other fault. -/
theorem witness_MalformedStateIsStuck :
    [{ inPhase .pad with fin := .none }, { inPhase .pad with fin := .last },
      { inPhase .update with fin := .pend1 }, { inPhase .idle with t := 1 },
      { inPhase .expand with t := 15 }, { inPhase .idle with len := 1 }].map (fun e : Engine =>
        (decide ((withEngine e).resetDue = false), faultOf (step (withEngine e)))) =
    List.replicate 6 (true, some .malformedState) ∧
    faultOf (step (withEngine { fullEngine .expand 16 .none with len := 8 })) = none ∧
    faultOf (step (withEngine (inPhase .load))) = some .unwrittenCell := by decide +kernel

/-- Steps for OnlyNamedStepsWrite and TransitionTable: a command, a micro-step, a wait, a reset. -/
theorem witness_steps_go_on :
    [presenting (inPhase .idle) [0x3000] [], withEngine (fullEngine .round 63 .none),
      withEngine (inPhase .idle), presenting (inPhase .error) [] [.reset]].map (fun s =>
        (after (step s)).map fun t => (t.eng.phase, t.eng.t)) =
    [some (.pad, 0), some (.update, 0), some (.idle, 0), some (.idle, 0)] := by decide +kernel

theorem witness_ErrorLeftOnlyByInitOrReset :
    [presenting (inPhase .error) [0x2000] [], presenting (inPhase .error) [0x1000] [],
      presenting (inPhase .error) [] [.reset]].map (fun s =>
        (after (step s)).map fun t => t.eng.phase) =
    [some .error, some .idle, some .idle] := by decide

theorem witness_DigestStaysUntilRestart :
    [presenting (inPhase .done) [0x2000] [], presenting (inPhase .done) [0x1000] []].map (fun s =>
        (after (step s)).map fun t => t.eng.phase) = [some .done, some .idle] := by decide

/-- An engine in the middle of a run has the invariant. -/
theorem fullEngine_inv : (fullEngine .load 0 .none).Inv where
  lenBytes := rfl
  indexExpand := by decide
  indexZero := fun _ _ => rfl
  finPad := by decide
  finQuiet := by decide
  finBlock := by decide
  fillBlock := by decide
  bufForm := by decide +kernel
  wForm := by decide +kernel
  bufPartial := by rintro (h | ⟨h, -⟩) <;> cases h
  bufFull := fun _ => by unfold Memory.writtenBelow; decide +kernel
  wPartial := fun h => by cases h
  wFull := fun h => by cases h
  vSeeded := by rintro (h | ⟨h, -⟩) <;> cases h

theorem witness_EveryStepKeepsInvariant : (fullEngine .load 0 .none).Inv ∧
    (after (step (withEngine (fullEngine .load 0 .none)))).isSome = true :=
  ⟨fullEngine_inv, by decide +kernel⟩

theorem witness_EveryReachableStepIsSafe : Reachable (presenting Engine.reset [0x3000] []) :=
  .start [0x3000] [] 0

theorem next_of_after {o : Host.Outcome State Fault Refusal} {s : State} (h : after o = some s) :
    o = .next s := by
  cases o with
  | next t => exact congrArg _ (Option.some.inj h)
  | fault f => cases h
  | refused r => cases h

/-- FINAL from reset and one PAD step: the next step is the LOAD of a last block. -/
theorem witness_LastBlockEndsWithLength :
    ∃ s, Reachable s ∧ s.eng.phase = .load ∧ s.eng.fin = .last := by
  have h1 : after (step (presenting Engine.reset [0x3000] [])) =
      some { withEngine { inPhase .pad with fin := .pend1 } with resps := [0x0000] } := by
    decide +kernel
  have h2 : ((after (step { withEngine { inPhase .pad with fin := .pend1 } with resps := [0x0000] })).map
      fun t => (t.eng.phase, t.eng.fin)) = some (.load, .last) := by decide +kernel
  obtain ⟨s2, hs2, hp⟩ := Option.map_eq_some_iff.mp h2
  exact ⟨s2, .next _ _ (.next _ _ (.start [0x3000] [] 0) (next_of_after h1)) (next_of_after hs2),
    congrArg Prod.fst hp, congrArg Prod.snd hp⟩

theorem witness_PadShape : 8 * ([] : List Byte).length < 2 ^ 64 ∧
    (pad (List.replicate 56 0x61)).isOk = true := by decide +kernel

theorem witness_ScheduleRecurrence : (List.replicate 16 (0 : Word)).length = 16 := by decide

theorem witness_DigestAndHexViews : (3 : Nat) < 4 ∧ (31 : Nat) < 32 ∧ (63 : Nat) < 64 ∧
    (serialize iv)[31]? = some 0x19 ∧ (toHex (serialize iv))[63]? = some 0x39 := by decide

theorem witness_BlockIsCompressed :
    let s := presenting (fullEngine .load 0 .none) [0x4000] []
    s.eng.Inv ∧ s.eng.phase = .load ∧ s.noReset ∧ s.hostWaits ∧
    ∀ j, j < 64 → s.eng.buf.get j = some 0x61 :=
  ⟨fullEngine_inv, rfl, by simp [State.noReset, presenting, State.reset], by
    unfold State.hostWaits; decide, by decide +kernel⟩

theorem witness_BusyEndsWithin230Steps :
    let s := presenting (fullEngine .load 0 .none) [] [.take .host]
    s.eng.Inv ∧ s.noReset ∧ s.hostWaits ∧ s.eng.phase.busy = true :=
  ⟨fullEngine_inv, by simp [State.noReset, presenting], rfl, rfl⟩

theorem witness_EveryWordIsAnswered :
    let s := presenting (fullEngine .load 0 .none) [0x4000, 0x0000] [.take .host]
    s.eng.Inv ∧ s.noReset := ⟨fullEngine_inv, by simp [State.noReset, presenting]⟩

/-- Two orders of steps for one word, each run to its end. -/
theorem witness_OrderOfStepsDoesNotMatter :
    let s1 := presenting Engine.reset [0x2061] [.take .host]
    let s2 := presenting Engine.reset [0x2061] [.take .engine, .take .host]
    s1.eng.Inv ∧ s1.eng = s2.eng ∧ s1.cmds = s2.cmds ∧ s1.resps = s2.resps ∧ s1.noReset ∧
    s2.noReset ∧ (∃ t, Host.Core.run core 1 s1 = .next t ∧ t.over) ∧
    (∃ t, Host.Core.run core 1 s2 = .next t ∧ t.over) := by
  refine ⟨inv_reset, rfl, rfl, rfl, by simp [State.noReset, presenting],
    by simp [State.noReset, presenting], ⟨_, rfl, rfl, rfl⟩, ⟨_, rfl, rfl, rfl⟩⟩

/-- From reset with another V: the run that opens the padding, and the one that goes on to EXPAND. -/
theorem witness_ResetValueOfVNeverShows :
    let s := presenting Engine.reset [0x3000] []
    (s.eng.phase ≠ .expand ∧ s.eng.phase ≠ .round ∧ s.eng.phase ≠ .update) ∧
    [1, 3].map (fun k => (after (Host.Core.run core k s)).map fun t => (t.eng.phase, t.eng.v)) =
      [some (.pad, ⟨0, 0, 0, 0, 0, 0, 0, 0⟩), some (.expand, iv)] := by decide +kernel

/-- With INIT, RDSTAT and an illegal word between, and from reset without INIT. -/
theorem witness_EngineComputesHash :
    let s := presenting (inPhase .done) [0x1000, 0x6000, 0x2061, 0x2161, 0x3000] [.take .host]
    let r := presenting Engine.reset [0x2061, 0x3000] []
    (s.eng.Inv ∧ s.eng.phase.busy = false ∧ s.noReset ∧ [(0x61 : Byte)].length < 2 ^ 61 ∧
      s.cmds.filter effective = hashWords [0x61]) ∧
    (r.eng.Inv ∧ r.noReset ∧ r.eng = State.reset.eng ∧
      r.cmds.filter effective = (hashWords [0x61]).tail) :=
  ⟨⟨{ inv_reset with
      indexExpand := by decide
      finPad := by decide
      finQuiet := by decide
      finBlock := by decide
      fillBlock := by decide
      bufPartial := by rintro (h | ⟨h, -⟩) <;> cases h
      bufFull := fun h => by cases h
      wPartial := fun h => by cases h
      wFull := fun h => by cases h
      vSeeded := by rintro (h | ⟨h, -⟩) <;> cases h
      indexZero := fun _ _ => rfl },
    rfl, by simp [State.noReset, presenting], by decide, by decide⟩,
   inv_reset, by simp [State.noReset, presenting], rfl, by decide⟩

end Sys2Proof.Tests
end

section
/-! SUPPORT. The legal command words by their fields and as numbers, the masks of 30_encoding.md R83, the step in
which the host takes its turn (R90), and with them the obligations on encoding. -/

namespace Sys2Proof

/-! ## Legal words -/

theorem decodeBare_ok_iff (i : Instr) (arg : Byte) : (∃ j, decodeBare i arg = .ok j) ↔ arg = 0 := by
  unfold decodeBare
  split <;> simp_all

theorem decodeIndexed_ok_iff (i : Byte → Instr) (bound : Nat) (arg : Byte) :
    (∃ j, decodeIndexed i bound arg = .ok j) ↔ arg.toNat < bound := by
  unfold decodeIndexed
  split <;> simp [*]

/-- The opcode map with the operand ranges (30_encoding.md R81, R82). -/
theorem decodeOp_ok_iff (op : Nat) (arg : Byte) : (∃ i, decodeOp op arg = .ok i) ↔
    op = 1 ∧ arg = 0 ∨ op = 2 ∨ op = 3 ∧ arg = 0 ∨ op = 4 ∧ arg.toNat < 32 ∨
    op = 5 ∧ arg.toNat < 64 ∨ op = 6 ∧ arg = 0 := by
  unfold decodeOp
  split
  case h_7 =>
    simp only [reduceCtorEq, exists_false, false_iff]
    tauto
  all_goals simp [decodeBare_ok_iff, decodeIndexed_ok_iff]

theorem decodeCommand_ok_iff (c : CmdWord) : (∃ i, decodeCommand c = .ok i) ↔
    rsvField c = 0 ∧ ∃ i, decodeOp (opField c).toNat (argField c) = .ok i := by
  unfold decodeCommand
  split <;> simp_all

/-- Legality as arithmetic on the word, one case for each command (30_encoding.md R83). -/
theorem legal_iff_toNat (c : CmdWord) : legal c = true ↔
    c.toNat = 0x1000 ∨ c.toNat / 256 = 0x20 ∨ c.toNat = 0x3000 ∨ c.toNat / 32 = 0x200 ∨
    c.toNat / 64 = 0x140 ∨ c.toNat = 0x6000 := by
  have hc := c.isLt
  rw [legal_iff, decodeCommand_ok_iff, decodeOp_ok_iff]
  simp only [BitVec.toNat_eq, opField_toNat, rsvField_toNat, argField_toNat]
  simp only [BitVec.ofNat_eq_ofNat, BitVec.toNat_ofNat, Nat.zero_mod]
  omega

/-- A mask of the bits from `k` on rounds down to a multiple of `2 ^ k`. -/
theorem and_highMask_toNat {w : Nat} (c : BitVec w) (k : Nat) :
    (c &&& (BitVec.allOnes w <<< k)).toNat = c.toNat / 2 ^ k * 2 ^ k := by
  have hshift : c &&& (BitVec.allOnes w <<< k) = (c >>> k) <<< k := by
    ext i hi
    by_cases hik : i < k
    · simp [hik]
    · simp [hik, Nat.add_sub_of_le (Nat.le_of_not_lt hik), BitVec.getLsbD_eq_getElem hi]
  have hle := Nat.div_mul_le_self c.toNat (2 ^ k)
  rw [hshift, BitVec.toNat_shiftLeft, BitVec.toNat_ushiftRight, Nat.shiftLeft_eq,
    Nat.shiftRight_eq_div_pow, Nat.mod_eq_of_lt (Nat.lt_of_le_of_lt hle c.isLt)]

/-- A mask equation of 30_encoding.md R83 as arithmetic on the word. -/
theorem and_highMask_eq_iff (c : CmdWord) {mask v : CmdWord} (k : Nat)
    (hmask : BitVec.allOnes 16 <<< k = mask) :
    c &&& mask = v ↔ c.toNat / 2 ^ k * 2 ^ k = v.toNat := by
  rw [BitVec.toNat_eq, ← hmask, and_highMask_toNat]

/-- The six mask equations of 30_encoding.md R83. -/
theorem legal_iff_masks (c : CmdWord) : legal c = true ↔
    (c &&& 0xffff = 0x1000 ∨ c &&& 0xff00 = 0x2000 ∨ c &&& 0xffff = 0x3000 ∨
     c &&& 0xffe0 = 0x4000 ∨ c &&& 0xffc0 = 0x5000 ∨ c &&& 0xffff = 0x6000) := by
  have h0 {v : CmdWord} := and_highMask_eq_iff c (v := v) (mask := 0xffff) 0 (by decide)
  have h8 {v : CmdWord} := and_highMask_eq_iff c (v := v) (mask := 0xff00) 8 (by decide)
  rw [legal_iff_toNat, h0, h0, h0, h8, and_highMask_eq_iff c 5 (by decide),
    and_highMask_eq_iff c 6 (by decide)]
  simp only [BitVec.ofNat_eq_ofNat, BitVec.toNat_ofNat]
  omega

/-- The legal words with bits 11:8 zero, opcode and operand packed into one number: a range for each row
of 30_encoding.md R83. -/
def packedLegal : Finset Nat :=
  Finset.Ico 256 257 ∪ (Finset.Ico 512 768 ∪ (Finset.Ico 768 769 ∪ (Finset.Ico 1024 1056 ∪
    (Finset.Ico 1280 1344 ∪ Finset.Ico 1536 1537))))

theorem mem_packedLegal_iff {n : Nat} (hn : n < 4096) : n ∈ packedLegal ↔
    legal (cmdWord (BitVec.ofNat 4 (n / 256)) 0 (BitVec.ofNat 8 (n % 256))) = true := by
  have hw : (cmdWord (BitVec.ofNat 4 (n / 256)) 0 (BitVec.ofNat 8 (n % 256))).toNat =
      n / 256 * 4096 + n % 256 := by
    rw [cmdWord_toNat, BitVec.ofNat_eq_ofNat]
    simp only [BitVec.toNat_ofNat]
    omega
  rw [legal_iff_toNat, hw]
  simp only [packedLegal, Finset.mem_union, Finset.mem_Ico]
  omega

/-- The count of 30_encoding.md R83: the ranges do not overlap, so their sizes
1, 256, 1, 32, 64 and 1 add up. -/
theorem packedLegal_card : packedLegal.card = 355 := by
  unfold packedLegal
  repeat rw [Finset.card_union_of_disjoint
    (by simp only [Finset.disjoint_left, Finset.mem_union, Finset.mem_Ico]; omega)]
  simp only [Nat.card_Ico, Nat.reduceSub, Nat.reduceAdd]

theorem legal_packed_count : ((List.range 4096).filter fun n =>
    legal (cmdWord (BitVec.ofNat 4 (n / 256)) 0 (BitVec.ofNat 8 (n % 256)))).length = 355 := by
  rw [← List.toFinset_card_of_nodup (List.nodup_range.filter _), ← packedLegal_card]
  refine congrArg Finset.card (Finset.ext fun n => ?_)
  simp only [List.mem_toFinset, List.mem_filter, List.mem_range]
  refine ⟨fun ⟨hn, hl⟩ => (mem_packedLegal_iff hn).mpr hl, fun hm => ?_⟩
  have hn : n < 4096 := by
    simp only [packedLegal, Finset.mem_union, Finset.mem_Ico] at hm
    omega
  exact ⟨hn, (mem_packedLegal_iff hn).mp hm⟩

theorem legal_reservedBits {rsv : BitVec 4} (h : rsv ≠ 0) (op : BitVec 4) (arg : Byte) :
    legal (cmdWord op rsv arg) = false := by
  have hd : decodeCommand (cmdWord op rsv arg) = .error .reservedBits := by
    rw [decodeCommand_cmdWord, if_neg h]
  simp [legal, hd]

/-- Settles O8, from legality as arithmetic on the word. -/
theorem legalWordsAreTheTable : Obligations.LegalWordsAreTheTable :=
  ⟨legal_iff_masks, legal_packed_count, fun op _ arg h => legal_reservedBits h op arg⟩

/-- Settles O11, code by code. -/
theorem phaseSelectsMicroStep : Obligations.PhaseSelectsMicroStep :=
  ⟨rfl, rfl, rfl, rfl, rfl, rfl, rfl, rfl, rfl⟩

namespace Machine

/-! ## Held words -/

theorem busy_of_held {c : CmdWord} {p : Phase} (h : held c p = true) : p.busy = true := by
  simp only [held, Bool.and_eq_true] at h
  exact h.2

theorem not_held_of_illegal {c : CmdWord} (h : legal c = false) (p : Phase) : held c p = false := by
  simp [held, h]

theorem not_held_of_not_busy {p : Phase} (h : p.busy = false) (c : CmdWord) : held c p = false := by
  simp [held, h]

theorem held_of_busy {c : CmdWord} {p : Phase} (hl : legal c = true) (hc : c ≠ 0x6000)
    (hb : p.busy = true) : held c p = true := by
  have hs : isStatusRead c = false := Bool.eq_false_iff.mpr (mt (isStatusRead_iff c).mp hc)
  simp [held, hl, hs, hb]

theorem not_held_statusRead (p : Phase) : held 0x6000 p = false := by
  have hs : isStatusRead 0x6000 = true := (isStatusRead_iff _).mpr rfl
  simp only [held, hs, Bool.not_true, Bool.and_false, Bool.false_and]

/-! ## The host's turn -/

/-- Where the next event is an instruction, the step runs it. -/
theorem step_of_run {s : State} {i : Instr} (h : s.nextEvent = .run i) :
    step s = exec i s.passTurn := by
  simp [step, h]

section HostTurn
variable {s : State} {c : CmdWord} {cs : List CmdWord} {ts : List Turn}
  (hc : s.cmds = c :: cs) (ht : s.turns = .take .host :: ts)
include hc ht

/-- On the host's turn, the host steps unless its word is held. -/
theorem State.mover_hostTurn :
    s.mover = some (if held c s.eng.phase then .engine else .host) := by
  have hhost : s.hostEnabled = !held c s.eng.phase := by simp only [State.hostEnabled, hc]
  cases hh : held c s.eng.phase
  case true =>
    have hb : s.engineEnabled = true := busy_of_held hh
    simp [State.mover, hhost, hh, hb]
  case false =>
    cases hb : s.engineEnabled <;> simp [State.mover, hhost, hh, hb, State.chosen, ht]

variable (hm : s.eng.malformed = false)
include hm

/-- On the host's turn, the next event is the command, or the micro-step where the word is held. -/
theorem State.nextEvent_hostTurn :
    s.nextEvent = if held c s.eng.phase then microEvent s.eng.phase else commandEvent c := by
  have hmv := State.mover_hostTurn hc ht
  rw [State.nextEvent_eq (by simp [State.resetDue, ht]) hm]
  split
  · next hh => exact State.agentEvent_engine (by simpa [hh] using hmv)
  · next hh => exact State.agentEvent_host (by simpa [hh] using hmv) hc

/-- A word that is not held and whose answer leaves the engine as it is: the step only answers it. -/
theorem step_hostTurn_answerOnly {code : RespCode} {data : Byte} (hh : held c s.eng.phase = false)
    (ha : wordAnswer c s.eng = ⟨s.eng, code, data⟩) :
    step s = .next { s with cmds := cs, turns := ts, resps := s.resps ++ [respWord code data] } := by
  have hmv : s.mover = some .host := by simpa [hh] using State.mover_hostTurn hc ht
  rw [step_host hm (by simp [State.resetDue, ht]) hmv hc, ha, State.passTurn_cons ht]
  simp [State.answer, State.respond, hc]

/-- A legal word that is not held: the step executes its command. -/
theorem step_hostTurn_command {i : Instr} (hh : held c s.eng.phase = false)
    (hd : decodeCommand c = .ok i) : step s = exec i { s with turns := ts } := by
  have hne := State.nextEvent_hostTurn hc ht hm
  rw [if_neg (by simp [hh]), commandEvent_ok hd] at hne
  rw [step_of_run hne, State.passTurn_cons ht]

/-- A held word: the step is the micro-step that PHASE selects. -/
theorem step_hostTurn_held (hh : held c s.eng.phase = true) :
    ∃ i, decodeMicroStep s.eng.phase.code = .ok i ∧ step s = exec i { s with turns := ts } := by
  obtain ⟨i, hi, hev⟩ := microEvent_of_busy (busy_of_held hh)
  have hne := State.nextEvent_hostTurn hc ht hm
  rw [if_pos hh, hev] at hne
  exact ⟨i, hi, by rw [step_of_run hne, State.passTurn_cons ht]⟩

end HostTurn

theorem wordAnswer_illegal {c : CmdWord} (h : legal c = false) (e : Engine) :
    wordAnswer c e = ⟨e, .nakIllegal, 0⟩ := by
  unfold legal at h; unfold wordAnswer
  cases hd : decodeCommand c <;> simp_all

/-- The phases that do not permit a command (30_encoding.md R91). -/
theorem instrAnswer_notPermitted {i : Instr} {e : Engine}
    (h : (((∃ b, i = .data b) ∨ i = .final) ∧ e.phase ≠ .idle) ∨
      (((∃ n, i = .rddig n) ∨ ∃ n, i = .rdhex n) ∧ e.phase ≠ .done)) :
    instrAnswer i e = ⟨e, .nakState, 0⟩ := by
  rcases h with ⟨⟨_, rfl⟩ | rfl, hp⟩ | ⟨⟨_, rfl⟩ | ⟨_, rfl⟩, hp⟩ <;> exact if_neg hp

/-- Settles O14, test by test. -/
theorem commandStepTestsInOrder : Obligations.CommandStepTestsInOrder := by
  intro s c cs ts hc ht hm
  refine ⟨fun hl => ?illegal, fun hrd => ?status, fun hl hrd hb => ?held,
    fun i hd _ hb => ⟨fun hp => ?refused, fun _ => ?executed⟩⟩
  case illegal =>
    exact step_hostTurn_answerOnly hc ht hm (not_held_of_illegal hl _) (wordAnswer_illegal hl _)
  case status =>
    subst hrd
    rw [← respWord_ok]
    exact step_hostTurn_answerOnly hc ht hm (not_held_statusRead _) rfl
  case held => exact step_hostTurn_held hc ht hm (held_of_busy hl hrd hb)
  case refused =>
    refine step_hostTurn_answerOnly hc ht hm (not_held_of_not_busy hb c) (code := .nakState) (data := 0) ?_
    simpa [wordAnswer, hd] using instrAnswer_notPermitted hp
  case executed => exact step_hostTurn_command hc ht hm (not_held_of_not_busy hb c) hd

end Machine

end Sys2Proof
end

section
/-! SUPPORT. The word operations of 40_word_arithmetic.md bit by bit, and with them the obligations on word
arithmetic: a law of words that is not a law of the library is shown bit by bit. -/

namespace Sys2Proof.Machine

theorem maxWord_eq_allOnes : (0xffffffff : Word) = BitVec.allOnes 32 := by decide

theorem getLsbD_maxWord {i : Nat} (hi : i < 32) : (0xffffffff : Word).getLsbD i = true := by
  rw [maxWord_eq_allOnes, BitVec.getLsbD_allOnes, decide_eq_true hi]

section Rotation

variable (x : Word) (n : Fin 32)

/-- The amount 0 needs no case of its own where a shift by the whole width is 0 (R110). -/
theorem rotr_eq_rotateRight : rotr x n = x.rotateRight n.val := by
  rw [BitVec.rotateRight_def, Nat.mod_eq_of_lt n.isLt]
  by_cases hn : n = 0 <;> simp [rotr, hn]

theorem getLsbD_rotr {i : Nat} (hi : i < 32) :
    (rotr x n).getLsbD i = x.getLsbD ((i + n.val) % 32) := by
  have hn := n.isLt
  rw [rotr_eq_rotateRight, BitVec.getLsbD_rotateRight_of_lt hn]
  by_cases hin : i < 32 - n.val
  · rw [decide_eq_true hin, cond_true, Nat.mod_eq_of_lt (by omega), Nat.add_comm]
  · have hwrap : (i + n.val) % 32 = i - (32 - n.val) := by omega
    rw [decide_eq_false hin, cond_false, hwrap, decide_eq_true hi, Bool.true_and]

@[simp] theorem rotr_zero : rotr x 0 = x := rfl

@[simp] theorem zero_rotr : rotr 0 n = 0 :=
  BitVec.eq_of_getLsbD_eq fun i hi => by simp [getLsbD_rotr _ _ hi]

@[simp] theorem maxWord_rotr : rotr 0xffffffff n = 0xffffffff := by
  refine BitVec.eq_of_getLsbD_eq fun i hi => ?_
  rw [getLsbD_rotr _ _ hi, getLsbD_maxWord hi, getLsbD_maxWord (Nat.mod_lt _ (by decide))]

/-- The shifts of R110's formula are on unbounded integers, so the result is cut to 32 bits once. -/
theorem rotr_toNat {n : Fin 32} (hn : n ≠ 0) : (rotr x n).toNat =
    ((x.toNat >>> n.val) ||| (x.toNat <<< (32 - n.val))) % 2 ^ 32 := by
  have hlow : x.toNat >>> n.val < 2 ^ 32 := Nat.lt_of_le_of_lt (Nat.shiftRight_le _ _) x.isLt
  rw [rotr, if_neg hn, BitVec.toNat_or, BitVec.toNat_ushiftRight, BitVec.toNat_shiftLeft,
    Nat.or_mod_two_pow, Nat.mod_eq_of_lt hlow]

theorem rotr_rotr (m : Fin 32) :
    rotr (rotr x m) n = rotr x (Fin.ofNat 32 ((m.val + n.val) % 32)) := by
  refine BitVec.eq_of_getLsbD_eq fun i hi => ?_
  rw [getLsbD_rotr _ _ hi, getLsbD_rotr _ _ (Nat.mod_lt _ (by decide)), getLsbD_rotr _ _ hi]
  congr 1
  simp only [Fin.val_ofNat]
  omega

theorem rotr_rotr_back {n : Fin 32} (hn : n ≠ 0) :
    rotr (rotr x n) (Fin.ofNat 32 (32 - n.val)) = x := by
  have hpos : n.val ≠ 0 := fun h => hn (Fin.ext h)
  have hturn : (n.val + (32 - n.val) % 32) % 32 = 0 := by omega
  rw [rotr_rotr, Fin.val_ofNat, hturn]
  exact rotr_zero x

end Rotation

/-- Settles O1, from the law of the bits. -/
theorem rotateRightMovesBits : Obligations.RotateRightMovesBits := fun x n =>
  ⟨fun _ hi => getLsbD_rotr x n hi, rotr_toNat x, rotr_zero x, zero_rotr n, maxWord_rotr n,
    rotr_rotr_back x, rotr_rotr x n, by decide, by decide⟩

theorem getLsbD_shr (x : Word) (n : Fin 32) (i : Nat) :
    (shr x n).getLsbD i = x.getLsbD (i + n.val) := by
  rw [shr, BitVec.getLsbD_ushiftRight, Nat.add_comm]

theorem shr_toNat (x : Word) (n : Fin 32) : (shr x n).toNat = x.toNat / 2 ^ n.val := by
  rw [shr, BitVec.toNat_ushiftRight, Nat.shiftRight_eq_div_pow]

/-- Settles O2: the bits from 32 on, which the shift brings in, are 0. -/
theorem shiftRightFillsZero : Obligations.ShiftRightFillsZero := by
  refine fun x n => ⟨shr_toNat x n, fun i _ => ?_, BitVec.ushiftRight_zero x,
    by decide, by decide, by decide⟩
  rw [getLsbD_shr]
  split
  case isTrue => rfl
  case isFalse h => exact BitVec.getLsbD_of_ge x _ (by omega)

section Bitwise

variable (x y : Word) (i : Nat)

@[simp] theorem getLsbD_wordAnd :
    (wordAnd x y).getLsbD i = (x.getLsbD i && y.getLsbD i) := BitVec.getLsbD_and

@[simp] theorem getLsbD_wordOr :
    (wordOr x y).getLsbD i = (x.getLsbD i || y.getLsbD i) := BitVec.getLsbD_or

@[simp] theorem getLsbD_wordXor :
    (wordXor x y).getLsbD i = (x.getLsbD i ^^ y.getLsbD i) := BitVec.getLsbD_xor

theorem getLsbD_wordNot {i : Nat} (hi : i < 32) : (wordNot x).getLsbD i = !x.getLsbD i := by
  rw [wordNot, BitVec.getLsbD_not, decide_eq_true hi, Bool.true_and]

end Bitwise

/-- Settles O3: the laws of words are the library's. -/
theorem bitwiseOperations : Obligations.BitwiseOperations := by
  refine ⟨fun x y i hi => ⟨getLsbD_wordAnd x y i, getLsbD_wordOr x y i, getLsbD_wordXor x y i,
    getLsbD_wordNot x hi⟩, fun x y z => ?laws,
    by decide, by decide, by decide, by decide, by decide, by decide⟩
  rw [maxWord_eq_allOnes]
  exact ⟨BitVec.and_zero, BitVec.and_allOnes, BitVec.and_self, BitVec.or_zero, BitVec.or_allOnes,
    BitVec.xor_zero, BitVec.xor_self, BitVec.xor_allOnes, BitVec.xor_comm x y, BitVec.xor_assoc x y z,
    BitVec.toNat_not, BitVec.not_not⟩

/-- Settles O4: the laws of words are the library's. -/
theorem additionWraps : Obligations.AdditionWraps :=
  ⟨fun x y z => ⟨BitVec.toNat_add x y, BitVec.add_zero x, BitVec.add_comm x y, BitVec.add_assoc x y z⟩,
    by decide, by decide, by decide, by decide⟩

section Sigma

variable (x : Word) (k l m : Fin 32) {i : Nat}

/-- The shape of `s0` and `s1` (R117, R118). -/
theorem getLsbD_xor_rotr_rotr_shr (hi : i < 32) :
    (wordXor (wordXor (rotr x k) (rotr x l)) (shr x m)).getLsbD i =
      (x.getLsbD ((i + k.val) % 32) ^^ x.getLsbD ((i + l.val) % 32) ^^ x.getLsbD (i + m.val)) := by
  rw [getLsbD_wordXor, getLsbD_wordXor, getLsbD_rotr x k hi, getLsbD_rotr x l hi, getLsbD_shr]

/-- The shape of `S0` and `S1` (R119, R120). -/
theorem getLsbD_xor_rotr_rotr_rotr (hi : i < 32) :
    (wordXor (wordXor (rotr x k) (rotr x l)) (rotr x m)).getLsbD i =
      (x.getLsbD ((i + k.val) % 32) ^^ x.getLsbD ((i + l.val) % 32) ^^
        x.getLsbD ((i + m.val) % 32)) := by
  rw [getLsbD_wordXor, getLsbD_wordXor, getLsbD_rotr x k hi, getLsbD_rotr x l hi, getLsbD_rotr x m hi]

end Sigma

/-- Settles O5: each function has one of two shapes. -/
theorem sigmaFunctions : Obligations.SigmaFunctions :=
  ⟨fun x _ hi => ⟨getLsbD_xor_rotr_rotr_shr x 7 18 3 hi, getLsbD_xor_rotr_rotr_shr x 17 19 10 hi,
    getLsbD_xor_rotr_rotr_rotr x 2 13 22 hi, getLsbD_xor_rotr_rotr_rotr x 6 11 25 hi⟩,
    by decide, by decide, by decide, by decide⟩

section ChooseMajority

variable (x y z : Word)

theorem getLsbD_ch {i : Nat} (hi : i < 32) :
    (ch x y z).getLsbD i = if x.getLsbD i then y.getLsbD i else z.getLsbD i := by
  rw [ch, getLsbD_wordXor, getLsbD_wordAnd, getLsbD_wordAnd, getLsbD_wordNot x hi]
  cases x.getLsbD i <;> simp

theorem getLsbD_maj (i : Nat) : (maj x y z).getLsbD i =
    decide (2 ≤ (x.getLsbD i).toNat + (y.getLsbD i).toNat + (z.getLsbD i).toNat) := by
  simp only [maj, getLsbD_wordXor, getLsbD_wordAnd]
  generalize x.getLsbD i = a, y.getLsbD i = b, z.getLsbD i = c
  revert a b c
  decide

theorem ch_zero : ch 0 y z = z :=
  BitVec.eq_of_getLsbD_eq fun i hi => by
    rw [getLsbD_ch _ _ _ hi]
    simp

theorem ch_maxWord : ch 0xffffffff y z = y :=
  BitVec.eq_of_getLsbD_eq fun i hi => by rw [getLsbD_ch _ _ _ hi, if_pos (getLsbD_maxWord hi)]

theorem ch_same : ch x y y = y :=
  BitVec.eq_of_getLsbD_eq fun i hi => by rw [getLsbD_ch _ _ _ hi, ite_self]

/-- The two words that `ch` joins have no bit in common (R121). -/
theorem ch_eq_wordOr : ch x y z = wordOr (wordAnd x y) (wordAnd (wordNot x) z) := by
  refine BitVec.eq_of_getLsbD_eq fun i hi => ?_
  rw [getLsbD_ch _ _ _ hi, getLsbD_wordOr, getLsbD_wordAnd, getLsbD_wordAnd, getLsbD_wordNot x hi]
  cases x.getLsbD i <;> simp

theorem maj_swap_left : maj x y z = maj y x z :=
  BitVec.eq_of_getLsbD_eq fun i _ => by
    rw [getLsbD_maj, getLsbD_maj, Nat.add_comm (x.getLsbD i).toNat]

theorem maj_swap_right : maj x y z = maj x z y :=
  BitVec.eq_of_getLsbD_eq fun i _ => by rw [getLsbD_maj, getLsbD_maj, Nat.add_right_comm]

theorem maj_same : maj x x z = x :=
  BitVec.eq_of_getLsbD_eq fun i _ => by
    rw [getLsbD_maj]
    cases x.getLsbD i <;> cases z.getLsbD i <;> rfl

theorem maj_zero : maj 0 y z = wordAnd y z :=
  BitVec.eq_of_getLsbD_eq fun i _ => by simp [maj]

theorem maj_maxWord : maj 0xffffffff y z = wordOr y z :=
  BitVec.eq_of_getLsbD_eq fun i hi => by
    rw [getLsbD_maj, getLsbD_wordOr, getLsbD_maxWord hi]
    cases y.getLsbD i <;> cases z.getLsbD i <;> rfl

end ChooseMajority

/-- Settles O6, from the laws of the bits. -/
theorem chooseAndMajority : Obligations.ChooseAndMajority :=
  ⟨fun x y z i hi => ⟨getLsbD_ch x y z hi, getLsbD_maj x y z i⟩,
    fun x y z => ⟨ch_zero y z, ch_maxWord y z, ch_same x y, ch_eq_wordOr x y z, maj_swap_left x y z,
      maj_swap_right x y z, maj_same x z, maj_zero y z, maj_maxWord y z⟩,
    by decide, by decide⟩

end Sys2Proof.Machine
end

section
/-! SUPPORT. DATA and FINAL phase by phase, the length bytes of a padded message as a number, and with them the
obligations on padding (41_padding.md). -/

namespace Sys2Proof.Machine

/-! ## The commands of the message -/

theorem exec_data (b : Byte) (s : State) :
    exec (.data b) s = .next (s.command permitsMessage (dataEffect b)) := rfl

theorem exec_final (s : State) : exec .final s = .next (s.command permitsMessage finalEffect) := rfl

section MessageCommand
variable {s : State} (f : Engine → Answer)

/-- In IDLE a message command has its effect (30_encoding.md R91). -/
theorem State.messageCommand_idle (h : s.eng.phase = .idle) :
    s.command permitsMessage f = s.answer (f s.eng) :=
  State.command_permitted (by simp [h, Phase.busy]) (by simp [h, permitsMessage]) f

/-- In DONE and ERROR a message command is refused (30_encoding.md R91). -/
theorem State.messageCommand_refused (h : s.eng.phase = .done ∨ s.eng.phase = .error) :
    s.command permitsMessage f = s.respond .nakState 0 := by
  rcases h with h | h <;>
    exact State.command_refused (by simp [h, Phase.busy]) (by simp [h, permitsMessage]) f

end MessageCommand

section Answer
variable (s : State) (a : Answer) {r : RespWord} (hr : respWord a.code a.data = r)
include hr

theorem State.answer_eq : s.answer a =
    { s with eng := a.eng, cmds := s.cmds.tail, resps := s.resps ++ [r] } := hr ▸ rfl

theorem State.answer_answeredWith : s.AnsweredWith (s.answer a) r := hr ▸ ⟨rfl, rfl, rfl, rfl⟩

end Answer

/-- The response words without data (30_encoding.md R86). -/
theorem respWord_ok_zero : respWord .ok 0 = 0x0000 := by decide

theorem respWord_nakState_zero : respWord .nakState 0 = 0x2000 := by decide

theorem respWord_errTooLarge_zero : respWord .errTooLarge 0 = 0x3000 := by decide

theorem dataEffect_atLimit (b : Byte) {e : Engine} (h : e.len = maxLen) :
    dataEffect b e = raiseInputTooLarge e := if_pos h

theorem dataEffect_belowLimit (b : Byte) {e : Engine} (h : e.len ≠ maxLen) : dataEffect b e =
    { eng := { e with buf := e.buf.set e.fill b, len := e.len + 8,
                      phase := if e.fill = 63 then .load else e.phase }
      code := .ok, data := 0 } := if_neg h

theorem Engine.fill_eq_last_iff (e : Engine) : e.fill = 63 ↔ e.len.extractLsb' 3 6 = 63 :=
  BitVec.toNat_inj (y := 63)

/-- Settles O24, phase by phase. -/
theorem finalOpensPadding : Obligations.FinalOpensPadding := by
  refine fun s => ⟨fun hb => ?busy, fun hp => ?refused, fun hp => ?idle⟩
  case busy => rw [exec_final, State.command_busy hb]
  case refused => rw [exec_final, State.messageCommand_refused _ hp, State.respond, respWord_nakState_zero]
  case idle =>
    rw [exec_final, State.messageCommand_idle _ hp, State.answer_eq s (finalEffect s.eng) respWord_ok_zero]
    rfl

/-- Settles O22, phase by phase, and in IDLE by the test of the length. -/
theorem dataAppendsByte : Obligations.DataAppendsByte := by
  refine fun s b => ⟨fun hb => ?busy, fun hp => ?refused, fun hp hmax => ?atLimit, fun hp hmax => ?append⟩
  case busy => rw [exec_data, State.command_busy hb]
  case refused => rw [exec_data, State.messageCommand_refused _ hp, State.respond, respWord_nakState_zero]
  case atLimit =>
    rw [exec_data, State.messageCommand_idle _ hp, dataEffect_atLimit b hmax,
      State.answer_eq s (raiseInputTooLarge s.eng) respWord_errTooLarge_zero]
    rfl
  case append =>
    rw [exec_data, State.messageCommand_idle _ hp, dataEffect_belowLimit b hmax]
    refine ⟨_, rfl, State.answer_answeredWith s _ respWord_ok_zero, Memory.get_set_same _ _ _,
      fun j hj => Memory.get_set_other _ _ hj, rfl, ?phase, rfl, rfl, rfl, rfl, rfl⟩
    rw [State.answer_eng, hp]
    exact if_congr s.eng.fill_eq_last_iff rfl rfl

/-! ## The padded message -/

theorem padZeros_lt (n : Nat) : padZeros n < 64 := Nat.mod_lt _ (by decide)

/-- The zeros reach byte 56 of a block, where the length begins (41_padding.md R140). -/
theorem padZeros_reaches (n : Nat) : (n + 1 + padZeros n) % 64 = 56 := by
  rw [padZeros]; omega

theorem padded_length_eq_sum (m : List Byte) :
    (padded m).length = m.length + 1 + padZeros m.length + 8 := by
  simp only [padded, List.length_append, List.length_singleton, List.length_replicate, be64_length]

theorem padded_take_length (m : List Byte) : (padded m).take m.length = m := by
  simp [padded]

theorem padded_drop_last_eight (m : List Byte) :
    (padded m).drop ((padded m).length - 8) = be64 (BitVec.ofNat 64 (8 * m.length)) := by
  refine List.drop_left' ?_
  rw [padded, List.length_append (bs := be64 _), be64_length, Nat.add_sub_cancel]

/-- Read as a big-endian number, the eight bytes of a length are the length (20_memory.md R53). -/
theorem foldl_be64 (l : BitVec 64) :
    (be64 l).foldl (fun acc b => acc * 256 + b.toNat) 0 = l.toNat := by
  have hl := l.isLt
  simp only [be64, List.foldl_cons, List.foldl_nil, BitVec.extractLsb'_toNat,
    Nat.shiftRight_eq_div_pow]
  omega

/-- Settles O46: the number of zeros is `padZeros`, and the bytes are those of `padded_get`. -/
theorem padShape : Obligations.PadShape := by
  refine fun m => ⟨fun h => if_pos h, fun h => ⟨padded m, padZeros m.length, pad_eq h, padZeros_lt _,
    padZeros_reaches _, padded_length_eq_sum m, padded_length m, padded_take_length m, ?marker,
    fun j hlo hhi => ?zeros, ?length⟩⟩
  case marker => rw [padded_get, if_neg (Nat.lt_irrefl _), if_pos rfl]
  case zeros => rw [padded_get, if_neg (by omega), if_neg (by omega), if_pos hhi]
  case length =>
    rw [padded_drop_last_eight, foldl_be64, BitVec.toNat_ofNat, Nat.mod_eq_of_lt h]

end Sys2Proof.Machine
end

section
/-! SUPPORT. The words of the schedule one by one, the block that LOAD reads and the word that EXPAND computes, and
with them the obligations on the message schedule (42_schedule.md). -/

namespace Sys2Proof.Machine

/-! ## The recurrence -/

/-- The four words that the next one is computed from exist, and the sum is R160's. -/
theorem nextWord_eq_sum {vs : List Word} (h : 16 ≤ vs.length) : ∃ w16 w15 w7 w2,
    vs[vs.length - 16]? = some w16 ∧ vs[vs.length - 15]? = some w15 ∧
    vs[vs.length - 7]? = some w7 ∧ vs[vs.length - 2]? = some w2 ∧
    nextWord vs = w16 + smallSigma0 w15 + w7 + smallSigma1 w2 := by
  have hget : ∀ {k}, k < vs.length → vs[k]? = some (vs.getD k 0) := fun hk => by
    rw [List.getD_eq_getElem _ _ hk, List.getElem?_eq_getElem hk]
  exact ⟨_, _, _, _, hget (by omega), hget (by omega), hget (by omega), hget (by omega), rfl⟩

/-- Each word that a schedule adds is the next word of the schedule before it. -/
theorem extendSchedule_get_added (m : List Word) {n k : Nat} (h : n < k) :
    (extendSchedule k m)[m.length + n]? = some (nextWord (extendSchedule n m)) := by
  rw [extendSchedule_le (Nat.succ_le_of_lt h) m (by omega), extendSchedule_succ,
    ← extendSchedule_length n m, List.getElem?_concat_length]

/-- Settles O47: word `16 + n` is the next word of `extendSchedule n m`, a prefix of the schedule. -/
theorem scheduleRecurrence : Obligations.ScheduleRecurrence := by
  refine fun m hm => ⟨by rw [schedule, extendSchedule_length, hm],
    fun i hi => extendSchedule_prefix 48 m (by omega), fun i hlo hhi => ?added⟩
  obtain ⟨n, rfl⟩ := Nat.exists_eq_add_of_le hlo
  have hlen : (extendSchedule n m).length = 16 + n := by rw [extendSchedule_length, hm]
  have hprefix : ∀ {j}, j < 16 + n → (schedule m)[j]? = (extendSchedule n m)[j]? := fun hj =>
    extendSchedule_le (by omega) m (by omega)
  have hlast : (schedule m)[16 + n]? = some (nextWord (extendSchedule n m)) :=
    hm ▸ extendSchedule_get_added m (by omega)
  rw [hprefix (by omega), hprefix (by omega), hprefix (by omega), hprefix (by omega), hlast, ← hlen]
  obtain ⟨w16, w15, w7, w2, h16, h15, h7, h2, hsum⟩ :=
    nextWord_eq_sum (vs := extendSchedule n m) (by omega)
  exact ⟨w16, w15, w7, w2, h16, h15, h7, h2, congrArg some hsum⟩

/-! ## LOAD and EXPAND -/

theorem Memory.get_setFrom_after {α : Type} (m : Memory α) (vs : List α) {i j : Nat}
    (h : i + vs.length ≤ j) : (m.setFrom i vs).get j = m.get j := by
  rw [Memory.get_setFrom, if_neg (by omega)]

/-- A block all of whose bytes are written has its sixteen words (20_memory.md R52). -/
theorem blockWords_of_written {buf : Memory Byte} {f : Nat → Byte}
    (h : ∀ i, i < 64 → buf.get i = some (f i)) : ∃ ws, blockWords buf 0 16 = some ws ∧
      ws.length = 16 ∧ ∀ j, j < 16 → ws[j]? = some (wordAt f j) := by
  refine ⟨_, blockWords_of_get fun i hi => h i (by omega), by simp, fun j hj => ?_⟩
  rw [List.getElem?_map, List.getElem?_range' hj]
  simp

/-- Settles O32: LOAD's words are `wordAt f`, and each is its four bytes, most significant first. -/
theorem loadTakesBlock : Obligations.LoadTakesBlock := by
  intro s f hp hbuf
  obtain ⟨ws, hws, hlen, hget⟩ := blockWords_of_written hbuf
  refine ⟨_, State.micro_of_next hp (loadEffect_of hws), ⟨rfl, rfl, rfl, rfl⟩, rfl,
    fun j hj => ⟨wordAt f j, ?block, packWord_toNat _ _ _ _⟩,
    fun j hj => Memory.get_setFrom_after s.eng.w ws (by omega)⟩
  case block => exact (Memory.holds_setFrom s.eng.w ws j (by omega)).trans (hget j hj)

theorem expandWord_of_get {w : Memory Word} {t : Nat} {w16 w15 w7 w2 : Word}
    (h16 : w.get (t - 16) = some w16) (h15 : w.get (t - 15) = some w15)
    (h7 : w.get (t - 7) = some w7) (h2 : w.get (t - 2) = some w2) :
    expandWord w t = some (w16 + smallSigma0 w15 + w7 + smallSigma1 w2) := by
  simp only [expandWord, h16, h15, h7, h2]
  rfl

/-- Settles O33, by the test of T against 63. -/
theorem expandComputesWord : Obligations.ExpandComputesWord := by
  intro s w16 w15 w7 w2 hp ht h16 h15 h7 h2
  have hword := expandWord_of_get h16 h15 h7 h2
  by_cases h63 : s.eng.t = 63
  case pos =>
    exact ⟨_, State.micro_of_next hp (expandEffect_last hword h63), ⟨rfl, rfl, rfl, rfl⟩, rfl,
      Memory.get_set_same _ _ _, fun j hj => Memory.get_set_other _ _ hj, fun _ => ⟨rfl, rfl⟩,
      fun hlt => absurd (congrArg Fin.val h63) (Nat.ne_of_lt hlt)⟩
  case neg =>
    exact ⟨_, State.micro_of_next hp (expandEffect_step ht hword h63), ⟨rfl, rfl, rfl, rfl⟩, rfl,
      Memory.get_set_same _ _ _, fun j hj => Memory.get_set_other _ _ hj,
      fun hlast => absurd (Fin.ext hlast) h63, fun _ => ⟨nextIndex_val h63, hp⟩⟩

end Sys2Proof.Machine
end

section
/-! SUPPORT. One round with its two sums written out, and with it the obligation on ROUND (43_compression.md). -/

namespace Sys2Proof.Machine

/-- The simultaneous form of a round (43_compression.md R176) with `addMod` as the sum of words. -/
theorem roundFn_eq_sums (a b c d e f g h k x : Word) :
    let temp1 := h + bigSigma1 e + ch e f g + k + x
    let temp2 := bigSigma0 a + maj a b c
    roundFn ⟨a, b, c, d, e, f, g, h⟩ k x = ⟨temp1 + temp2, a, b, c, d + temp1, e, f, g⟩ := rfl

/-- Settles O34, by the test of T against 63. -/
theorem roundTransformsVariables : Obligations.RoundTransformsVariables := by
  intro s a b c d e f g h x hp hv hw temp1 temp2
  have hround : roundFn s.eng.v (kAt s.eng.t.val) x =
      ⟨temp1 + temp2, a, b, c, d + temp1, e, f, g⟩ := by rw [hv, roundFn_eq_sums]
  by_cases h63 : s.eng.t = 63
  case pos =>
    have hstep := roundEffect_last hw h63
    rw [hround] at hstep
    exact ⟨_, State.micro_of_next hp hstep, ⟨rfl, rfl, rfl, rfl⟩, rfl, fun _ => ⟨rfl, rfl⟩,
      fun hlt => absurd (congrArg Fin.val h63) (Nat.ne_of_lt hlt)⟩
  case neg =>
    have hstep := roundEffect_step hw h63
    rw [hround] at hstep
    exact ⟨_, State.micro_of_next hp hstep, ⟨rfl, rfl, rfl, rfl⟩, rfl,
      fun hlast => absurd (Fin.ext hlast) h63, fun _ => ⟨nextIndex_val h63, hp⟩⟩

end Sys2Proof.Machine
end

section
/-! SUPPORT. The views of H as bytes and characters, INIT, RDDIG, RDHEX and RDSTAT phase by phase, what each
event does to PHASE, T and FIN, and with them the obligations on the digest (44_digest.md). -/

namespace Sys2Proof.Machine

/-! ## The views of H -/

/-- Byte `k` of word `i` is digest byte `4 i + k` (10_state.md R34). -/
theorem digestByte_word (h : Oct Word) (i : Fin 8) {k : Nat} (hk : k < 4) :
    digestByte h (4 * i.val + k) = wordByte (h.get i) k := by
  have hdiv : (4 * i.val + k) / 4 = i.val := by omega
  have hmod : (4 * i.val + k) % 4 = k := by omega
  rw [digestByte, hdiv, hmod, Fin.ofNat_val_eq_self]

theorem toHex_serialize_pair (h : Oct Word) {j : Nat} (hj : j < 32) :
    (toHex (serialize h))[2 * j]? = some (hexDigit (highNibble (digestByte h j))) ∧
    (toHex (serialize h))[2 * j + 1]? = some (hexDigit (lowNibble (digestByte h j))) := by
  have hpair := toHex_get (serialize h) j
  rwa [serialize_get h hj] at hpair

theorem hexDigit_toNat (n : BitVec 4) :
    (hexDigit n).toNat = if n.toNat ≤ 9 then 0x30 + n.toNat else 0x57 + n.toNat := by
  revert n; decide

/-- Every character of the digest is a digit or a lower-case letter `a` to `f`. -/
theorem hexChar_range (h : Oct Word) (j : Nat) :
    0x30 ≤ (hexChar h j).toNat ∧ (hexChar h j).toNat ≤ 0x39 ∨
    0x61 ≤ (hexChar h j).toNat ∧ (hexChar h j).toNat ≤ 0x66 := by
  unfold hexChar
  split
  · exact hexDigit_range _
  · exact hexDigit_range _

/-- Settles O48, from `serialize_get` and `toHex_get`. -/
theorem digestAndHexViews : Obligations.DigestAndHexViews := by
  refine fun h => ⟨rfl, toHex_length _, fun i k hk => ?word, fun j hj => serialize_get h hj,
    fun j hj => toHex_serialize_pair h hj, fun j hj => toHex_serialize_get h hj, hexDigit_toNat⟩
  case word => rw [serialize_get h (by omega), digestByte_word h i hk, wordByte]

/-! ## The commands of the digest -/

theorem exec_init (s : State) : exec .init s = .next (s.command permitsInit initEffect) := rfl

theorem exec_rddig {i : Byte} (h : i.toNat < 32) (s : State) :
    exec (.rddig i) s = .next (s.command permitsRead (rddigEffect i)) := if_pos h

theorem exec_rdhex {j : Byte} (h : j.toNat < 64) (s : State) :
    exec (.rdhex j) s = .next (s.command permitsRead (rdhexEffect j)) := if_pos h

theorem exec_rdstat (s : State) : exec .rdstat s = .next (s.respond .ok (status s.eng.phase)) := rfl

/-- INIT is permitted wherever it is not held (30_encoding.md R91). -/
theorem State.initCommand_not_busy {s : State} (h : s.eng.phase.busy = false) (f : Engine → Answer) :
    s.command permitsInit f = s.answer (f s.eng) :=
  State.command_permitted h (by simp [permitsInit, h]) f

section ReadCommand
variable {s : State} (f : Engine → Answer)

/-- In DONE a read has its effect (30_encoding.md R91). -/
theorem State.readCommand_done (h : s.eng.phase = .done) :
    s.command permitsRead f = s.answer (f s.eng) :=
  State.command_permitted (by simp [h, Phase.busy]) (by simp [h, permitsRead]) f

/-- In IDLE and ERROR a read is refused (30_encoding.md R91). -/
theorem State.readCommand_refused (h : s.eng.phase = .idle ∨ s.eng.phase = .error) :
    s.command permitsRead f = s.respond .nakState 0 := by
  rcases h with h | h <;>
    exact State.command_refused (by simp [h, Phase.busy]) (by simp [h, permitsRead]) f

end ReadCommand

/-- The byte of a word by a shift: bits `31 - 8k : 24 - 8k` (44_digest.md R199). -/
theorem wordByte_eq_shift (x : Word) (k : Nat) : wordByte x k = (x >>> (24 - 8 * k)).setWidth 8 :=
  BitVec.eq_of_toNat_eq (by simp [wordByte])

theorem status_idle : status .idle = 0 := by decide

/-- Settles O21, held or executed. -/
theorem initStartsMessage : Obligations.InitStartsMessage := by
  refine fun s => ⟨fun hb => ?busy, fun hb => ?executed⟩
  case busy => rw [exec_init, State.command_busy hb]
  case executed =>
    rw [exec_init, State.initCommand_not_busy hb]
    exact ⟨_, rfl, State.answer_answeredWith s (initEffect s.eng) respWord_ok_zero, rfl, status_idle⟩

/-- Settles O25, phase by phase. -/
theorem readDigestByte : Obligations.ReadDigestByte := by
  refine fun s i hi => ⟨fun hb => ?busy, fun hp => ?refused, fun hp => ?done⟩
  case busy => rw [exec_rddig hi, State.command_busy hb]
  case refused =>
    rw [exec_rddig hi, State.readCommand_refused _ hp, State.respond, respWord_nakState_zero]
  case done =>
    rw [exec_rddig hi, State.readCommand_done _ hp,
      State.answer_eq s (rddigEffect i s.eng) (respWord_ok _), ← wordByte_eq_shift]
    rfl

/-- Settles O26, phase by phase: in DONE the answer is `hexChar`, the character of `to_hex` at that index. -/
theorem readHexCharacter : Obligations.ReadHexCharacter := by
  refine fun s j hj => ⟨fun hb => ?busy, fun hp => ?refused, fun hp =>
    ⟨hexChar s.eng.h j.toNat, toHex_serialize_get s.eng.h hj, hexChar_range _ _, ?done⟩⟩
  case busy => rw [exec_rdhex hj, State.command_busy hb]
  case refused =>
    rw [exec_rdhex hj, State.readCommand_refused _ hp, State.respond, respWord_nakState_zero]
  case done =>
    rw [exec_rdhex hj, State.readCommand_done _ hp,
      State.answer_eq s (rdhexEffect j s.eng) (respWord_ok _)]
    rfl

/-- Settles O28: the response word of STATUS in each of the eight phases. -/
theorem readStatusInEveryPhase : Obligations.ReadStatusInEveryPhase := by
  intro s
  rw [exec_rdstat, State.respond]
  congr 3
  cases s.eng.phase <;> rfl

/-! ## What each event does to PHASE, T and FIN -/

theorem Phase.not_busy_iff {p : Phase} : p.busy = false ↔ p = .idle ∨ p = .done ∨ p = .error := by
  cases p <;> simp [Phase.busy]

/-- A step runs a command other than RDSTAT only where the engine is not busy (30_encoding.md R92). -/
theorem State.not_busy_of_nextEvent_command {s : State} {i : Instr} {c : CmdWord}
    (h : s.nextEvent = .run i) (hcmd : encode i = .cmd c) (hne : i ≠ .rdstat) :
    s.eng.phase.busy = false := by
  obtain ⟨-, -, ⟨-, _, _, -, hd, hh⟩ | ⟨-, -, hd⟩⟩ := State.nextEvent_run h
  · exact not_busy_of_effective ((effective_of_decode hd).mpr hne) hh
  · rcases microStep_cases hd with ⟨-, rfl⟩ | ⟨-, rfl⟩ | ⟨-, rfl⟩ | ⟨-, rfl⟩ | ⟨-, rfl⟩ <;> cases hcmd

/-- A micro-step that a step runs is its effect on the engine, in its own phase. -/
theorem State.micro_passTurn_next {s s' : State} {p : Phase} {f : Engine → MicroResult}
    (h : s.passTurn.micro p f = .next s') : s.eng.phase = p ∧ f s.eng = .next s'.eng := by
  obtain ⟨hp, e, he, rfl⟩ := State.micro_next.mp h
  rw [State.passTurn_eng] at hp he
  exact ⟨hp, he⟩

/-- What a step that runs INIT does to the engine. -/
theorem exec_init_passTurn_eng {s s' : State} (hb : s.eng.phase.busy = false)
    (h : exec .init s.passTurn = .next s') : s'.eng = s.eng.startMessage := by
  rw [exec_init, State.initCommand_not_busy (by rwa [State.passTurn_eng])] at h
  cases h
  rw [State.answer_eng, State.passTurn_eng, initEffect]

/-- What a step that runs DATA or FINAL does to the engine: its effect in IDLE, nothing in DONE and ERROR. -/
theorem messageCommand_passTurn_eng {s : State} (hb : s.eng.phase.busy = false) (f : Engine → Answer) :
    (s.eng.phase = .idle ∧ (s.passTurn.command permitsMessage f).eng = (f s.eng).eng) ∨
    ((s.eng.phase = .done ∨ s.eng.phase = .error) ∧
      (s.passTurn.command permitsMessage f).eng = s.eng) := by
  rcases Phase.not_busy_iff.mp hb with hp | hp
  · rw [State.messageCommand_idle f (by rwa [State.passTurn_eng]), State.answer_eng, State.passTurn_eng]
    exact .inl ⟨hp, rfl⟩
  · rw [State.messageCommand_refused f (by rwa [State.passTurn_eng]), State.respond_eng,
      State.passTurn_eng]
    exact .inr ⟨hp, rfl⟩

/-- A read never changes the engine (44_digest.md R199 to R201). -/
theorem exec_read_passTurn_eng {i : Instr} {s s' : State} (h : exec i s.passTurn = .next s')
    (hi : (∃ n, i = .rddig n) ∨ (∃ n, i = .rdhex n) ∨ i = .rdstat) : s'.eng = s.eng := by
  have heng := exec_eng h
  rw [State.passTurn_eng] at heng
  rcases hi with ⟨_, rfl⟩ | ⟨_, rfl⟩ | rfl <;> exact heng.resolve_right id

/-- The rows of DATA in IDLE (44_digest.md R202). -/
theorem dataEffect_control (b : Byte) {e : Engine} (hp : e.phase = .idle) :
    (dataEffect b e).eng.t = e.t ∧ (dataEffect b e).eng.fin = e.fin ∧
    ((e.len ≠ maxLen ∧ e.fill < 63 ∧ (dataEffect b e).eng.phase = .idle) ∨
     (e.len ≠ maxLen ∧ e.fill = 63 ∧ (dataEffect b e).eng.phase = .load) ∨
     (e.len = maxLen ∧ (dataEffect b e).eng.phase = .error)) := by
  rcases dataEffect_cases b e with ⟨hmax, hd⟩ | ⟨hmax, hd⟩ <;> rw [hd]
  · exact ⟨rfl, rfl, .inr (.inr ⟨hmax, rfl⟩)⟩
  · refine ⟨rfl, rfl, ?_⟩
    by_cases hfull : e.fill = 63
    case pos => exact .inr (.inl ⟨hmax, hfull, if_pos hfull⟩)
    case neg =>
      have hlt := e.fill_lt
      exact .inl ⟨hmax, by omega, (if_neg hfull).trans hp⟩

/-- The rows of PAD (44_digest.md R202). -/
theorem padEffect_control {e e' : Engine} (h : padEffect e = .next e') :
    e'.phase = .load ∧ e'.t = e.t ∧
    ((e.fin = .pend1 ∧ e.fill ≤ 55 ∧ e'.fin = .last) ∨
     (e.fin = .pend1 ∧ 56 ≤ e.fill ∧ e'.fin = .pend2) ∨
     (e.fin = .pend2 ∧ e'.fin = .last)) := by
  rcases padEffect_next h with ⟨hf, hfits, rfl⟩ | ⟨hf, hcut, rfl⟩ | ⟨hf, rfl⟩
  · exact ⟨rfl, rfl, .inl ⟨hf, hfits, rfl⟩⟩
  · exact ⟨rfl, rfl, .inr (.inl ⟨hf, hcut, rfl⟩)⟩
  · exact ⟨rfl, rfl, .inr (.inr ⟨hf, rfl⟩)⟩

/-- The row of LOAD (44_digest.md R202). -/
theorem loadEffect_control {e e' : Engine} (h : loadEffect e = .next e') :
    e'.phase = .expand ∧ e'.t = 16 ∧ e'.fin = e.fin := by
  obtain ⟨_, -, rfl⟩ := loadEffect_next h
  exact ⟨rfl, rfl, rfl⟩

/-- The rows of EXPAND (44_digest.md R202). -/
theorem expandEffect_control {e e' : Engine} (h : expandEffect e = .next e') : e'.fin = e.fin ∧
    ((e.t.val < 63 ∧ e'.phase = e.phase ∧ e'.t.val = e.t.val + 1) ∨
     (e.t.val = 63 ∧ e'.phase = .round ∧ e'.t = 0)) := by
  obtain ⟨-, x, -, ⟨h63, rfl⟩ | ⟨h63, rfl⟩⟩ := expandEffect_next h
  · exact ⟨rfl, .inr ⟨congrArg Fin.val h63, rfl, rfl⟩⟩
  · exact ⟨rfl, .inl ⟨Fin.val_lt_last h63, rfl, nextIndex_val h63⟩⟩

/-- The rows of ROUND (44_digest.md R202). -/
theorem roundEffect_control {e e' : Engine} (h : roundEffect e = .next e') : e'.fin = e.fin ∧
    ((e.t.val < 63 ∧ e'.phase = e.phase ∧ e'.t.val = e.t.val + 1) ∨
     (e.t.val = 63 ∧ e'.phase = .update ∧ e'.t = 0)) := by
  obtain ⟨x, -, ⟨h63, rfl⟩ | ⟨h63, rfl⟩⟩ := roundEffect_next h
  · exact ⟨rfl, .inr ⟨congrArg Fin.val h63, rfl, rfl⟩⟩
  · exact ⟨rfl, .inl ⟨Fin.val_lt_last h63, rfl, nextIndex_val h63⟩⟩

/-- The rows of UPDATE (44_digest.md R202). -/
theorem updateEffect_control {e e' : Engine} (h : updateEffect e = .next e') : e'.t = e.t ∧
    ((e.fin = .none ∧ e'.phase = .idle ∧ e'.fin = .none) ∨
     (e.fin = .pend2 ∧ e'.phase = .pad ∧ e'.fin = .pend2) ∨
     (e.fin = .last ∧ e'.phase = .done ∧ e'.fin = .none)) := by
  rcases updateEffect_next h with ⟨hf, rfl⟩ | ⟨hf, rfl⟩ | ⟨hf, rfl⟩
  · exact ⟨rfl, .inl ⟨hf, rfl, hf⟩⟩
  · exact ⟨rfl, .inr (.inl ⟨hf, rfl, hf⟩)⟩
  · exact ⟨rfl, .inr (.inr ⟨hf, rfl, rfl⟩)⟩

/-- Settles O39, event by event and instruction by instruction. -/
theorem transitionTable : Obligations.TransitionTable := by
  intro s s' hstep p p' same move
  have control {e : Engine} (h : s'.eng = e) : p' = e.phase ∧ s'.eng.t = e.t ∧ s'.eng.fin = e.fin :=
    h ▸ ⟨rfl, rfl, rfl⟩
  rcases step_eng hstep with ⟨hev, heng⟩ | ⟨hev | hev, heng⟩ | ⟨i, hev, hi⟩
  · rw [hev]; exact control heng
  · rw [hev]; exact control heng
  · rw [hev]; exact control heng
  have hfree {c} := State.not_busy_of_nextEvent_command (c := c) hev
  rw [hev]
  cases i with
  | init =>
    have hb := hfree rfl nofun
    exact ⟨Phase.not_busy_iff.mp hb, control (exec_init_passTurn_eng hb hi)⟩
  | data b =>
    cases hi
    rcases messageCommand_passTurn_eng (hfree rfl nofun) (dataEffect b) with ⟨hp, heng⟩ | ⟨hp, heng⟩
    · obtain ⟨ht, hf, hrow⟩ := dataEffect_control b hp
      rw [← heng] at ht hf hrow
      rcases hrow with ⟨hmax, hfill, hq⟩ | ⟨hmax, hfill, hq⟩ | ⟨hmax, hq⟩
      · exact .inl ⟨hp, hmax, hfill, hq.trans hp.symm, ht, hf⟩
      · exact .inr (.inl ⟨hp, hmax, hfill, hq, ht, hf⟩)
      · exact .inr (.inr (.inl ⟨hp, hmax, hq, ht, hf⟩))
    · exact .inr (.inr (.inr ⟨hp, control heng⟩))
  | final =>
    cases hi
    rcases messageCommand_passTurn_eng (hfree rfl nofun) finalEffect with ⟨hp, heng⟩ | ⟨hp, heng⟩
    · exact .inl ⟨hp, control heng⟩
    · exact .inr ⟨hp, control heng⟩
  | rddig n => exact control (exec_read_passTurn_eng hi (.inl ⟨n, rfl⟩))
  | rdhex n => exact control (exec_read_passTurn_eng hi (.inr (.inl ⟨n, rfl⟩)))
  | rdstat => exact control (exec_read_passTurn_eng hi (.inr (.inr rfl)))
  | pad =>
    obtain ⟨hp, he⟩ := State.micro_passTurn_next hi
    exact ⟨hp, padEffect_control he⟩
  | load =>
    obtain ⟨hp, he⟩ := State.micro_passTurn_next hi
    exact ⟨hp, loadEffect_control he⟩
  | expand =>
    obtain ⟨hp, he⟩ := State.micro_passTurn_next hi
    exact ⟨hp, hp ▸ expandEffect_control he⟩
  | round =>
    obtain ⟨hp, he⟩ := State.micro_passTurn_next hi
    exact ⟨hp, hp ▸ roundEffect_control he⟩
  | update =>
    obtain ⟨hp, he⟩ := State.micro_passTurn_next hi
    exact ⟨hp, updateEffect_control he⟩

end Sys2Proof.Machine
end

section
/-! SUPPORT. What a command that the phase does not permit does, the one way into phase ERROR and the two ways out
of it, and with them the obligations on exceptions (60_exceptions.md). -/

namespace Sys2Proof.Machine

/-! ## Refused commands -/

/-- The refusal as a state: the response goes out and nothing else changes (60_exceptions.md R224). -/
theorem State.respond_nakState_eq (s : State) : s.respond .nakState 0 =
    { s with cmds := s.cmds.tail, resps := s.resps ++ [0x2000] } := by
  rw [State.respond, respWord_nakState_zero]

/-- DATA and FINAL are permitted in IDLE only (30_encoding.md R91). -/
theorem exec_message_refused {i : Instr} {s : State} (hp : s.eng.phase = .done ∨ s.eng.phase = .error)
    (hi : (∃ b, i = .data b) ∨ i = .final) :
    exec i s = .next { s with cmds := s.cmds.tail, resps := s.resps ++ [0x2000] } := by
  rw [← State.respond_nakState_eq]
  rcases hi with ⟨b, rfl⟩ | rfl
  · rw [exec_data, State.messageCommand_refused _ hp]
  · rw [exec_final, State.messageCommand_refused _ hp]

/-- RDDIG and RDHEX are permitted in DONE only (30_encoding.md R91). -/
theorem exec_read_refused {i : Instr} {s : State} (hp : s.eng.phase = .idle ∨ s.eng.phase = .error)
    (hi : (∃ n, i = .rddig n ∧ n.toNat < 32) ∨ ∃ n, i = .rdhex n ∧ n.toNat < 64) :
    exec i s = .next { s with cmds := s.cmds.tail, resps := s.resps ++ [0x2000] } := by
  rw [← State.respond_nakState_eq]
  rcases hi with ⟨n, rfl, hn⟩ | ⟨n, rfl, hn⟩
  · rw [exec_rddig hn, State.readCommand_refused _ hp]
  · rw [exec_rdhex hn, State.readCommand_refused _ hp]

/-- Settles O29, for the commands of the message and for the reads. -/
theorem notPermittedLeavesNoTrace : Obligations.NotPermittedLeavesNoTrace := by
  rintro s i (⟨hp, hi⟩ | ⟨hp, hi⟩)
  · exact ⟨_, exec_message_refused hp hi, rfl, rfl, rfl, rfl, rfl⟩
  · exact ⟨_, exec_read_refused hp hi, rfl, rfl, rfl, rfl, rfl⟩

/-! ## Into phase ERROR -/

theorem exec_data_atLimit (b : Byte) {s : State} (hp : s.eng.phase = .idle) (hmax : s.eng.len = maxLen) :
    exec (.data b) s = .next { s with
      eng := { s.eng with phase := .error }
      cmds := s.cmds.tail, resps := s.resps ++ [0x3000] } := by
  obtain ⟨-, -, hatLimit, -⟩ := dataAppendsByte s b
  exact hatLimit hp hmax

/-- DATA at the limit is the only instruction that enters phase ERROR (60_exceptions.md R222). -/
theorem exec_enters_error {i : Instr} {s s' : State} (h : exec i s = .next s')
    (hne : s.eng.phase ≠ .error) (herr : s'.eng.phase = .error) :
    s.eng.phase = .idle ∧ s.eng.len = maxLen ∧ ∃ b, i = .data b := by
  have moved {q : Phase} (hq : s'.eng.phase = q) : q = .error := hq.symm.trans herr
  rcases exec_eng h with hsame | heff
  · exact absurd (moved (congrArg Engine.phase hsame)) hne
  cases i with
  | init => exact nomatch moved (congrArg Engine.phase heff.2)
  | data b =>
    obtain ⟨hp, heng⟩ := heff
    obtain ⟨-, -, hrow⟩ := dataEffect_control b hp
    rw [← heng] at hrow
    rcases hrow with ⟨-, -, hq⟩ | ⟨-, -, hq⟩ | ⟨hmax, -⟩
    · exact nomatch moved hq
    · exact nomatch moved hq
    · exact ⟨hp, hmax, b, rfl⟩
  | final => exact nomatch moved (congrArg Engine.phase heff.2)
  | rddig n => exact heff.elim
  | rdhex n => exact heff.elim
  | rdstat => exact heff.elim
  | pad => exact nomatch moved (padEffect_control heff.2).1
  | load => exact nomatch moved (loadEffect_control heff.2).1
  | expand =>
    rcases (expandEffect_control heff.2).2 with ⟨-, hq, -⟩ | ⟨-, hq, -⟩
    · exact absurd (moved hq) hne
    · exact nomatch moved hq
  | round =>
    rcases (roundEffect_control heff.2).2 with ⟨-, hq, -⟩ | ⟨-, hq, -⟩
    · exact absurd (moved hq) hne
    · exact nomatch moved hq
  | update =>
    rcases (updateEffect_control heff.2).2 with ⟨-, hq, -⟩ | ⟨-, hq, -⟩ | ⟨-, hq, -⟩ <;>
      exact nomatch moved hq

/-- A step that enters phase ERROR runs DATA, in IDLE and at the limit. -/
theorem step_enters_error {s s' : State} (h : step s = .next s') (hne : s.eng.phase ≠ .error)
    (herr : s'.eng.phase = .error) : s.eng.phase = .idle ∧ s.eng.len = maxLen ∧
    ∃ b, s.nextEvent = .run (.data b) ∧ exec (.data b) s.passTurn = .next s' := by
  rcases step_eng h with ⟨-, heng⟩ | ⟨-, heng⟩ | ⟨i, hev, hi⟩
  · rw [heng] at herr; cases herr
  · rw [heng] at herr; exact absurd herr hne
  · obtain ⟨hp, hmax, b, rfl⟩ := exec_enters_error hi (by rwa [State.passTurn_eng]) herr
    rw [State.passTurn_eng] at hp hmax
    exact ⟨hp, hmax, b, hev, hi⟩

/-- Where the next step runs a command of the host, its word is the one presented. -/
theorem State.presented_of_nextEvent_command {s : State} {i : Instr} {c : CmdWord}
    (h : s.nextEvent = .run i) (hcmd : encode i = .cmd c) : ∃ cs, s.cmds = c :: cs := by
  obtain ⟨-, -, ⟨-, c', cs, hc, hd, -⟩ | ⟨-, -, hd⟩⟩ := State.nextEvent_run h
  · obtain rfl : c' = c := Code.cmd.inj ((decodeCommand_ok hd).1.symm.trans hcmd)
    exact ⟨cs, hc⟩
  · rcases microStep_cases hd with ⟨-, rfl⟩ | ⟨-, rfl⟩ | ⟨-, rfl⟩ | ⟨-, rfl⟩ | ⟨-, rfl⟩ <;> cases hcmd

/-- Settles O23: the cause by `step_enters_error`, the effect by DATA at the limit, the refusals by the phase. -/
theorem inputTooLargeOnlyFromData : Obligations.InputTooLargeOnlyFromData := by
  refine ⟨fun s s' hstep hne herr => ?cause, fun s b hp hmax => exec_data_atLimit b hp hmax,
    fun s i hp hi => ?refused⟩
  case cause =>
    obtain ⟨hp, hmax, b, hev, hi⟩ := step_enters_error hstep hne herr
    obtain ⟨cs, hc⟩ := State.presented_of_nextEvent_command hev rfl
    rw [exec_data_atLimit b (by rwa [State.passTurn_eng]) (by rwa [State.passTurn_eng])] at hi
    cases hi
    simp [hp, hmax, hc, maxLen]
  case refused =>
    rcases hi with hi | hi | hi
    · exact exec_message_refused (.inr hp) (.inl hi)
    · exact exec_message_refused (.inr hp) (.inr hi)
    · exact exec_read_refused (.inr hp) hi

/-! ## Out of phase ERROR -/

/-- In phase ERROR only INIT changes the engine (60_exceptions.md R228). -/
theorem exec_from_error {i : Instr} {s s' : State} (h : exec i s = .next s')
    (hp : s.eng.phase = .error) :
    s'.eng = s.eng ∨ (i = .init ∧ s'.eng = s.eng.startMessage) := by
  have elsewhere {q : Phase} (hq : s.eng.phase = q) : q = .error := hq.symm.trans hp
  rcases exec_eng h with hsame | heff
  · exact .inl hsame
  cases i with
  | init => exact .inr ⟨rfl, heff.2⟩
  | data b => exact nomatch elsewhere heff.1
  | final => exact nomatch elsewhere heff.1
  | rddig n => exact heff.elim
  | rdhex n => exact heff.elim
  | rdstat => exact heff.elim
  | pad => exact nomatch elsewhere heff.1
  | load => exact nomatch elsewhere heff.1
  | expand => exact nomatch elsewhere heff.1
  | round => exact nomatch elsewhere heff.1
  | update => exact nomatch elsewhere heff.1

theorem status_error : status .error = 0x04 := by decide

/-- Settles O40, event by event. -/
theorem errorLeftOnlyByInitOrReset : Obligations.ErrorLeftOnlyByInitOrReset := by
  intro s s' hstep hp
  have stays (heng : s'.eng = s.eng) : s'.eng = s.eng ∧ status s'.eng.phase = 0x04 :=
    ⟨heng, by rw [heng, hp, status_error]⟩
  rcases step_eng hstep with ⟨hev, heng⟩ | ⟨-, heng⟩ | ⟨i, hev, hi⟩
  · rw [heng]
    exact .inr ⟨.inl hev, rfl, rfl, rfl, status_idle⟩
  · exact .inl (stays heng)
  · have hmove := exec_from_error hi (by rwa [State.passTurn_eng])
    rw [State.passTurn_eng] at hmove
    rcases hmove with heng | ⟨rfl, heng⟩
    · exact .inl (stays heng)
    · rw [heng]
      exact .inr ⟨.inr hev, rfl, rfl, rfl, status_idle⟩

end Sys2Proof.Machine
end

section
/-! SUPPORT. The reset event as a step, the word presented to an engine that is not busy, the two steps from a held
word to its answer in the reset state, and with them the obligation on reset and held words
(70_reset_and_hazards.md R251). -/

namespace Sys2Proof.Machine

/-! ## The two steps -/

/-- A reset that is due comes before every other test (70_reset_and_hazards.md R250). -/
theorem step_reset {s : State} {ts : List Turn} (ht : s.turns = .reset :: ts) :
    step s = .next { s with eng := Engine.reset, turns := ts } := by
  have hev : s.nextEvent = .reset := if_pos (by simp [State.resetDue, ht])
  simp only [step, hev, State.passTurn_cons ht, State.resetEvent]

section QuietEngine
variable {s : State} {c : CmdWord} {cs : List CmdWord} (hb : s.eng.phase.busy = false)
  (hc : s.cmds = c :: cs)
include hb

theorem State.not_contended_of_not_busy : s.contended = false := by
  rw [State.contended, State.engineEnabled, hb, Bool.and_false]

include hc

/-- While the engine is not busy, the host steps wherever it presents a word. -/
theorem State.mover_of_not_busy : s.mover = some .host := by
  have hhost : s.hostEnabled = true :=
    State.hostEnabled_iff.mpr ⟨c, cs, hc, not_held_of_not_busy hb c⟩
  simp only [State.mover, hhost, State.engineEnabled, hb]

/-- With no turn scheduled and the engine not busy, the presented word is answered and no choice is drawn. -/
theorem step_answer_of_not_busy {a : Answer} {r : RespWord} (hm : s.eng.malformed = false)
    (ht : s.turns = []) (ha : wordAnswer c s.eng = a) (hr : respWord a.code a.data = r) :
    step s = .next { s with eng := a.eng, cmds := cs, resps := s.resps ++ [r] } := by
  rw [step_host hm (by simp [State.resetDue, ht]) (State.mover_of_not_busy hb hc) hc,
    State.passTurn_nil ht (State.not_contended_of_not_busy hb), ha, State.answer_eq s a hr, hc,
    List.tail_cons]

end QuietEngine

/-- The word presented when a reset comes is answered, one step later, by the reset engine. -/
theorem run_reset_answer {s : State} {c : CmdWord} {cs : List CmdWord} {a : Answer} {r : RespWord}
    (hc : s.cmds = c :: cs) (ht : s.turns = [.reset]) (ha : wordAnswer c Engine.reset = a)
    (hr : respWord a.code a.data = r) : Host.Core.run core 2 s = .next
      { s with eng := a.eng, cmds := cs, turns := [], resps := s.resps ++ [r] } := by
  have hanswer := step_answer_of_not_busy (s := { s with eng := Engine.reset, turns := [] })
    rfl hc rfl rfl ha hr
  exact (run_succ_of_next (step_reset ht) 1).trans ((run_one _).trans hanswer)

/-! ## The answers of the reset engine -/

theorem legal_of_held {c : CmdWord} {p : Phase} (h : held c p = true) : legal c = true := by
  simp only [held, Bool.and_eq_true] at h
  obtain ⟨⟨hl, -⟩, -⟩ := h
  exact hl

theorem decodeIndexed_ok {f : Byte → Instr} {bound : Nat} {arg : Byte} {i : Instr}
    (h : decodeIndexed f bound arg = .ok i) : i = f arg := by
  unfold decodeIndexed at h
  split at h <;> cases h
  rfl

/-- A legal word with the opcode of a read decodes to a read. -/
theorem decodeCommand_read {c : CmdWord} {n : Byte} {i : Instr}
    (hc : c = cmdWord 4 0 n ∨ c = cmdWord 5 0 n) (hd : decodeCommand c = .ok i) :
    (∃ m, i = .rddig m) ∨ ∃ m, i = .rdhex m := by
  rcases hc with rfl | rfl <;> rw [decodeCommand_cmdWord, if_pos rfl] at hd
  · exact .inl ⟨n, decodeIndexed_ok hd⟩
  · exact .inr ⟨n, decodeIndexed_ok hd⟩

/-- Outside DONE a legal read is refused (30_encoding.md R91). -/
theorem wordAnswer_read_refused {c : CmdWord} {n : Byte} {e : Engine} (hl : legal c = true)
    (hc : c = cmdWord 4 0 n ∨ c = cmdWord 5 0 n) (hp : e.phase ≠ .done) :
    wordAnswer c e = ⟨e, .nakState, 0⟩ := by
  obtain ⟨i, hd⟩ := (legal_iff c).mp hl
  rw [← instrAnswer_notPermitted (.inr ⟨decodeCommand_read hc hd, hp⟩), wordAnswer, hd]

/-- The first byte of a message goes to byte 0 of an empty block. -/
theorem wordAnswer_data_reset (b : Byte) : wordAnswer (cmdWord 2 0 b) Engine.reset =
    ⟨{ Engine.reset with buf := Memory.set [] 0 b, len := 8 }, .ok, 0⟩ := by
  rw [wordAnswer_data b _ rfl, dataEffect_belowLimit b (by decide)]
  rfl

theorem wordAnswer_final_reset :
    wordAnswer 0x3000 Engine.reset = ⟨{ Engine.reset with phase := .pad, fin := .pend1 }, .ok, 0⟩ :=
  wordAnswer_final _ rfl

theorem wordAnswer_init_reset : wordAnswer 0x1000 Engine.reset = ⟨Engine.reset, .ok, 0⟩ :=
  wordAnswer_init _

/-- Settles O20, command by command: `run_reset_answer` with the answer of the reset engine. -/
theorem heldWordSurvivesReset : Obligations.HeldWordSurvivesReset := by
  intro s c cs hc ht hh
  refine ⟨fun b hdata => ?data, fun hfinal => ?final, fun n hread => ?read, fun hinit => ?init⟩
  case data =>
    subst hdata
    exact ⟨_, run_reset_answer hc ht (wordAnswer_data_reset b) respWord_ok_zero, rfl, rfl, rfl,
      Memory.get_set_same _ _ _, fun j hj => Memory.get_set_other _ _ hj⟩
  case final =>
    subst hfinal
    exact run_reset_answer hc ht wordAnswer_final_reset respWord_ok_zero
  case read =>
    exact run_reset_answer hc ht (wordAnswer_read_refused (legal_of_held hh) hread nofun)
      respWord_nakState_zero
  case init =>
    subst hinit
    exact run_reset_answer hc ht wordAnswer_init_reset respWord_ok_zero

end Sys2Proof.Machine
end

section
/-! SUPPORT. The decoder and the encoder as inverses, the step that the engine takes when no word can be
accepted or on its own turn, the placing of an opcode-table word, and with them the obligations on encoding and
on single steps. -/

namespace Sys2Proof

/-- Settles O9, constructor by constructor. -/
theorem decodeOfEncode : Obligations.DecodeOfEncode := by
  intro i
  cases i with
  | init => exact Laws.RoundTrip.init
  | data b => exact Laws.RoundTrip.data b
  | final => exact Laws.RoundTrip.final
  | rddig n => exact Laws.RoundTrip.rddig n
  | rdhex n => exact Laws.RoundTrip.rdhex n
  | rdstat => exact Laws.RoundTrip.rdstat
  | pad => exact Laws.RoundTrip.pad
  | load => exact Laws.RoundTrip.load
  | expand => exact Laws.RoundTrip.expand
  | round => exact Laws.RoundTrip.round
  | update => exact Laws.RoundTrip.update

/-- A PHASE code that selects a micro-step is the code of that micro-step (30_encoding.md R88). -/
theorem decodeMicroStep_ok {p : BitVec 3} {i : Instr} (h : decodeMicroStep p = .ok i) :
    encode i = .uop p ∧ i.wellFormed = true := by
  have hp : p = BitVec.ofNat 3 p.toNat := by simp
  unfold decodeMicroStep at h
  split at h
  case h_6 => cases h
  all_goals
    next hcode =>
      cases h
      rw [hp, hcode]
      exact ⟨rfl, rfl⟩

/-- Settles O10, for command words and for PHASE codes. -/
theorem encodeOfDecode : Obligations.EncodeOfDecode := by
  intro c i h
  cases c with
  | cmd c => exact decodeCommand_ok h
  | uop p => exact decodeMicroStep_ok h

/-- Settles O12, word by word. -/
theorem workedEncodingsDecode : Obligations.WorkedEncodingsDecode :=
  ⟨rfl, rfl, rfl, rfl, rfl, rfl, rfl, rfl, rfl⟩

namespace Machine

/-! ## The engine's step -/

section EngineStep
variable {s : State} {i : Instr} (hm : s.eng.malformed = false)
  (hd : decodeMicroStep s.eng.phase.code = .ok i)
include hm hd

/-- Where the engine moves, the step is the micro-step that PHASE selects. -/
theorem step_of_mover_engine (hr : s.resetDue = false) (hv : s.mover = some .engine) :
    step s = exec i s.passTurn := by
  obtain ⟨-, hev⟩ := microEvent_of_decode hd
  exact step_of_run ((State.nextEvent_eq hr hm).trans ((State.agentEvent_engine hv).trans hev))

/-- On the engine's turn, the step is the micro-step that PHASE selects, whatever is presented. -/
theorem step_engineTurn {ts : List Turn} (ht : s.turns = .take .engine :: ts) :
    step s = exec i { s with turns := ts } := by
  obtain ⟨hb, -⟩ := microEvent_of_decode hd
  have hv : s.mover = some .engine := by
    cases hh : s.hostEnabled <;> simp [State.mover, hh, State.engineEnabled, hb, State.chosen, ht]
  rw [step_of_mover_engine hm hd (by simp [State.resetDue, ht]) hv, State.passTurn_cons ht]

end EngineStep

/-- Where no word can be accepted, a busy engine moves. -/
theorem State.mover_hostWaits {s : State} (hw : s.hostWaits) (hb : s.eng.phase.busy = true) :
    s.mover = some .engine := by
  have hhost : s.hostEnabled = false := hw
  simp [State.mover, hhost, State.engineEnabled, hb]

/-- Settles O15, for a command, for a micro-step with no word to accept, and for the engine's turn. -/
theorem stepRunsDecodedInstruction : Obligations.StepRunsDecodedInstruction := by
  intro s i ht hm
  have hr : s.resetDue = false := by simp [State.resetDue, ht]
  refine ⟨fun c cs hc hd hb => ?command, fun hd hw => ?waiting, fun ts hd => ?turn⟩
  case command =>
    have hev := (State.nextEvent_eq hr hm).trans
      ((State.agentEvent_host (State.mover_of_not_busy hb hc) hc).trans (commandEvent_ok hd))
    rw [step_of_run hev, State.passTurn_nil ht (State.not_contended_of_not_busy hb)]
  case waiting =>
    obtain ⟨hb, -⟩ := microEvent_of_decode hd
    have hhost : s.hostEnabled = false := hw
    have hcont : s.contended = false := by simp [State.contended, hhost]
    rw [step_of_mover_engine hm hd hr (State.mover_hostWaits hw hb), State.passTurn_nil ht hcont]
  case turn => exact step_engineTurn (s := { s with turns := .take .engine :: ts }) hm hd rfl

/-- Settles O16: nobody moves, and the turn listed first, if any, is used up. -/
theorem waitsWhenNothingEnabled : Obligations.WaitsWhenNothingEnabled := by
  intro s ho hm hr
  have hev : s.nextEvent = .wait := by
    rw [State.nextEvent_eq hr hm, State.agentEvent, State.over_mover ho]
  have hpass : s.passTurn = { s with turns := s.turns.tail } := by
    cases ht : s.turns with
    | nil => rw [State.passTurn_nil ht (State.not_contended_of_not_busy ho.2), List.tail_nil, ← ht]
    | cons t ts => rw [State.passTurn_cons ht, List.tail_cons]
  simp only [step, hev, hpass]

/-- A step that goes on is a reset, or starts in a combination that some rule produces. -/
theorem not_malformed_of_step_next {s s' : State} (hr : s.resetDue = false) (h : step s = .next s') :
    s.eng.malformed = false := by
  by_contra hm
  have hev : s.nextEvent = .stuck := by simp [State.nextEvent, hr, hm]
  simp [step, hev] at h

/-- Settles O30: the step is the reset event's or the engine's, and neither touches the port. -/
theorem heldWordStaysPresented : Obligations.HeldWordStaysPresented := by
  intro s s' c cs hc hh hstep
  cases hr : s.resetDue with
  | true =>
    have hev : s.nextEvent = .reset := if_pos hr
    simp only [step, hev] at hstep
    cases hstep
    exact ⟨by simp, by simp, nofun⟩
  | false =>
    have hm := not_malformed_of_step_next hr hstep
    have hb := busy_of_held hh
    have hwaits : s.hostWaits := by simp [State.hostWaits, State.hostEnabled, hc, hh]
    obtain ⟨i, hd, -⟩ := microEvent_of_busy hb
    rw [step_of_mover_engine hm hd hr (State.mover_hostWaits hwaits hb)] at hstep
    have hport := micro_port hd hstep
    exact ⟨by rw [hport, State.passTurn_cmds], by rw [hport, State.passTurn_resps],
      fun _ => ⟨i, hd, hstep⟩⟩

/-- The shape of a response word (30_encoding.md R85, R86) that has data beside OK only. -/
theorem respWord_shape {code : RespCode} {data : Byte} (h : code ≠ .ok → data = 0) :
    (respWord code data).extractLsb' 8 4 = 0 ∧ ((respWord code data).extractLsb' 12 4).toNat ≤ 3 ∧
    ((respWord code data).extractLsb' 12 4 ≠ 0 → (respWord code data).extractLsb' 0 8 = 0) := by
  rw [respWord_code, respWord_data]
  refine ⟨respWord_zero code data, by cases code <;> decide, fun hne => h ?_⟩
  rintro rfl
  exact hne rfl

/-- Settles O17, event by event. -/
theorem oneResponsePerAcceptedWord : Obligations.OneResponsePerAcceptedWord := by
  intro s s' hstep
  rcases step_next hstep with ⟨-, rfl⟩ | ⟨-, rfl⟩ | ⟨hev, rfl⟩ | ⟨i, hev, hi⟩
  case inl => exact .inl ⟨by simp, by simp⟩
  case inr.inl => exact .inl ⟨by simp, by simp⟩
  case inr.inr.inl =>
    obtain ⟨c, cs, hc, -⟩ := State.nextEvent_illegal hev
    obtain ⟨hzero, hcode, hnak⟩ := respWord_shape (code := .nakIllegal) (data := 0) fun _ => rfl
    exact .inr ⟨c, _, by simp [hc], by simp, hzero, hcode, hnak,
      fun hne => absurd (respWord_data _ _) hne⟩
  case inr.inr.inr =>
    obtain ⟨-, -, ⟨-, c, cs, hc, hd, hh⟩ | ⟨-, -, hd⟩⟩ := State.nextEvent_run hev
    case inl =>
      obtain ⟨_, hnext, code, data, hcmds, hresps, -, -, hdata, hread⟩ :=
        exec_answers (s := s.passTurn) hd (by simpa using hh)
      cases hi.symm.trans hnext
      obtain ⟨hzero, hcode, hnak⟩ := respWord_shape hdata
      refine .inr ⟨c, _, by simp [hcmds, hc], by simp [hresps], hzero, hcode, hnak,
        fun hne => ⟨i, hd, hread ?_⟩⟩
      rwa [respWord_data] at hne
    case inr =>
      have hport := micro_port (p := s.eng.phase) hd hi
      exact .inl ⟨by rw [hport, State.passTurn_cmds], by rw [hport, State.passTurn_resps]⟩

/-! ## The placing of an opcode-table word -/

/-- The mask that the placing puts on LEN leaves whole bytes. -/
theorem and_lengthMask_toNat (l : BitVec 64) : (l &&& 0xfffffffffffffff8).toNat % 8 = 0 := by
  have hmask := and_highMask_toNat l 3
  rw [show BitVec.allOnes 64 <<< 3 = 0xfffffffffffffff8 by decide] at hmask
  omega

/-- An engine made ready for a word accepts it. -/
theorem Engine.readyFor_accepts (e : Engine) (c : CmdWord) :
    (e.readyFor c).malformed = false ∧ held c (e.readyFor c).phase = false := by
  unfold Engine.readyFor
  split
  · have hlen := and_lengthMask_toNat e.len
    exact ⟨by simp_all [Engine.malformed], not_held_of_not_busy rfl c⟩
  · next h => simpa [and_comm] using h

/-- Each micro-step's preparation is a combination that a rule produces. -/
theorem Engine.selectMicroStep_not_malformed {p : BitVec 3} {i : Instr} (h : decodeMicroStep p = .ok i)
    (e : Engine) : (e.selectMicroStep p.toNat).malformed = false := by
  have hlen := and_lengthMask_toNat e.len
  unfold decodeMicroStep at h
  split at h <;> rename_i hcode
  case h_1 =>
    by_cases hf : e.fin = .pend2 <;> simp_all [Engine.selectMicroStep, Engine.malformed]
  case h_2 => simp_all [Engine.selectMicroStep, Engine.malformed]
  case h_3 =>
    simp_all [Engine.selectMicroStep, Engine.malformed]
    split <;> simp_all
  case h_4 => simp_all [Engine.selectMicroStep, Engine.malformed]
  case h_5 =>
    by_cases hf : e.fin = .pend1 <;> simp_all [Engine.selectMicroStep, Engine.malformed]
  case h_6 => cases h

/-- An engine prepared for a micro-step selects it. -/
theorem Engine.selectMicroStep_code {p : BitVec 3} {i : Instr} (h : decodeMicroStep p = .ok i)
    (e : Engine) : (e.selectMicroStep p.toNat).phase.code = p := by
  obtain ⟨hcode, -⟩ := decodeMicroStep_ok h
  cases i <;> cases hcode <;> rfl

theorem decodeTableWord_some {nbits w : Nat} {i : Instr} (h : decodeTableWord nbits w = some i) :
    ∃ c, tableCode nbits w = some c ∧ decode c = .ok i := by
  unfold decodeTableWord at h
  split at h
  · cases h
  · next c hc =>
    refine ⟨c, hc, ?_⟩
    split at h <;> cases h
    assumption

/-- Settles O13, for a command row and for a micro-step row. -/
theorem fetchWordRunsNext : Obligations.FetchWordRunsNext := by
  intro s nbits w i h
  obtain ⟨c, hc, hd⟩ := decodeTableWord_some h
  have hplace : s.withFetchWord nbits w = s.withCode c := by simp [State.withFetchWord, hc]
  rw [hplace]
  cases c with
  | cmd c =>
    obtain ⟨hm, hh⟩ := s.eng.readyFor_accepts c
    have ht : (s.withCode (.cmd c)).turns = .take .host :: s.turns := rfl
    rw [State.passTurn_cons ht]
    exact ⟨step_hostTurn_command rfl ht hm hh hd, rfl⟩
  | uop p =>
    have hp := s.eng.selectMicroStep_code hd
    have hm := s.eng.selectMicroStep_not_malformed hd
    have ht : (s.withCode (.uop p)).turns = .take .engine :: s.turns := rfl
    rw [State.passTurn_cons ht]
    exact ⟨step_engineTurn hm ((congrArg decodeMicroStep hp).trans hd) ht, rfl⟩

end Machine
end Sys2Proof
end

section
/-! SUPPORT. The invariant along a run, the step that goes on in every state that has it, the block that the
last LOAD reads, which step can write what, and with them the obligations on the whole machine. -/

namespace Sys2Proof.Machine

/-! ## The invariant along a run -/

/-- Settles O42: the invariant speaks of the engine alone, and reset leaves it with it. -/
theorem invariantAtReset : Obligations.InvariantAtReset := fun _ _ _ => inv_reset

/-- Settles O43: a step is one of the engine's moves, and every move keeps the invariant. -/
theorem everyStepKeepsInvariant : Obligations.EveryStepKeepsInvariant :=
  fun _ _ h hstep => inv_move h (step_engineMove hstep)

theorem Reachable.inv {s : State} (h : Reachable s) : s.eng.Inv := by
  induction h with
  | start cmds turns drawn => exact invariantAtReset cmds turns drawn
  | next s s' _ hstep ih => exact everyStepKeepsInvariant s s' ih hstep

/-- In a state with the invariant the step goes on, whoever moves. -/
theorem Engine.Inv.safeStep {s : State} (h : s.eng.Inv) : SafeStep s := by
  cases hr : s.resetDue with
  | true =>
    have hev : s.nextEvent = .reset := if_pos hr
    exact ⟨s.passTurn.resetEvent, by simp only [step, hev]⟩
  | false =>
    cases hv : s.mover with
    | none =>
      have hev : s.nextEvent = .wait := by
        rw [State.nextEvent_eq hr h.notMalformed, State.agentEvent, hv]
      exact ⟨s.passTurn, by simp only [step, hev]⟩
    | some a =>
      cases a with
      | engine => exact ⟨_, step_engine h hr hv⟩
      | host =>
        obtain ⟨c, cs, hc, -⟩ := State.hostEnabled_iff.mp (State.mover_host hv)
        exact ⟨_, step_host h.notMalformed hr hv hc⟩

/-- Settles O44, from the invariant of every reachable state. -/
theorem everyReachableStepIsSafe : Obligations.EveryReachableStepIsSafe :=
  fun _ h => ⟨h.inv, h.inv.safeStep⟩

/-! ## The last block -/

/-- Where LOAD is about to read a last block, that block ends with the length (41_padding.md, section 3). -/
def Engine.EndsWithLength (e : Engine) : Prop :=
  e.phase = .load → e.fin = .last →
    ∀ k, k < 8 → e.buf.get (56 + k) = some (e.len.extractLsb' (56 - 8 * k) 8)

theorem padTail_endsWithLength {e : Engine} (hf : e.fill ≤ 55) : ∀ k, k < 8 →
    (e.buf.setFrom e.fill (padTail e)).get (56 + k) = some (e.len.extractLsb' (56 - 8 * k) 8) := by
  intro k hk
  rw [Memory.get_setFrom, if_pos (by rw [padTail_length hf]; omega), padTail_get hf,
    if_neg (by omega), if_neg (by omega), show 56 + k - e.fill - (56 - e.fill) = k by omega,
    be64_get _ hk]

theorem padRest_endsWithLength (e : Engine) : ∀ k, k < 8 →
    (e.buf.setFrom 0 (padRest e)).get (56 + k) = some (e.len.extractLsb' (56 - 8 * k) 8) := by
  intro k hk
  rw [Memory.get_setFrom, if_pos (by rw [padRest_length]; omega), padRest_get, if_neg (by omega),
    show 56 + k - 0 - 56 = k by omega, be64_get _ hk]

/-- PAD ends a last block with the length. -/
theorem padEffect_endsWithLength {e e' : Engine} (h : padEffect e = .next e') : e'.EndsWithLength := by
  rcases padEffect_next h with ⟨-, hfits, rfl⟩ | ⟨-, -, rfl⟩ | ⟨-, rfl⟩
  · exact fun _ _ => padTail_endsWithLength hfits
  · exact fun _ hlast => nomatch hlast
  · intro _ _
    dsimp only
    exact padRest_endsWithLength e

/-- Outside phase LOAD nothing is asked. -/
theorem endsWithLength_of_phase {e : Engine} {p : Phase} (h : e.phase = p) (hp : p ≠ .load) :
    e.EndsWithLength := fun hload => absurd (h.symm.trans hload) hp

/-- Every move of the engine keeps this: only DATA and PAD lead to LOAD, and DATA completes no last block. -/
theorem endsWithLength_move {e e' : Engine} (hi : e.Inv) (h : e.EndsWithLength) (hm : EngineMove e e') :
    e'.EndsWithLength := by
  cases hm with
  | stay => exact h
  | reset => exact endsWithLength_of_phase rfl nofun
  | init => exact endsWithLength_of_phase rfl nofun
  | data b hp =>
    obtain ⟨-, hfin, -⟩ := dataEffect_control b hp
    have hnone := hi.finQuiet (by rw [hp]; rfl)
    exact fun _ hlast => nomatch hnone.symm.trans (hfin.symm.trans hlast)
  | final => exact endsWithLength_of_phase rfl nofun
  | pad _ _ he => exact padEffect_endsWithLength he
  | load _ _ he => exact endsWithLength_of_phase (loadEffect_control he).1 nofun
  | expand _ hp he =>
    obtain ⟨-, ⟨-, hq, -⟩ | ⟨-, hq, -⟩⟩ := expandEffect_control he
    · exact endsWithLength_of_phase (hq.trans hp) nofun
    · exact endsWithLength_of_phase hq nofun
  | round _ hp he =>
    obtain ⟨-, ⟨-, hq, -⟩ | ⟨-, hq, -⟩⟩ := roundEffect_control he
    · exact endsWithLength_of_phase (hq.trans hp) nofun
    · exact endsWithLength_of_phase hq nofun
  | update _ _ he =>
    obtain ⟨-, ⟨-, hq, -⟩ | ⟨-, hq, -⟩ | ⟨-, hq, -⟩⟩ := updateEffect_control he <;>
      exact endsWithLength_of_phase hq nofun

theorem Reachable.endsWithLength {s : State} (h : Reachable s) : s.eng.EndsWithLength := by
  induction h with
  | start => exact endsWithLength_of_phase rfl nofun
  | next s s' hreach hstep ih => exact endsWithLength_move hreach.inv ih (step_engineMove hstep)

/-- Settles O45, move by move along the run. -/
theorem lastBlockEndsWithLength : Obligations.LastBlockEndsWithLength :=
  fun _ h => h.endsWithLength

/-! ## Reset -/

/-- Settles O18: the values are those of the definitions. -/
theorem resetValues : Obligations.ResetValues :=
  ⟨fun _ => rfl, rfl, rfl, rfl, rfl, Oct.forall_fin_eight.mpr ⟨rfl, rfl, rfl, rfl, rfl, rfl, rfl, rfl⟩,
    Memory.get_nil, Memory.get_nil, status_idle, fun _ => ⟨rfl, rfl, rfl, rfl, rfl, rfl, rfl, rfl⟩⟩

/-- Settles O19: a reset that is due comes before every other test. -/
theorem resetInAnyState : Obligations.ResetInAnyState := fun _ _ ht => step_reset ht

/-! ## Malformed combinations -/

theorem Engine.malformed_iff (e : Engine) : e.malformed = true ↔
    (e.phase = .pad ∧ (e.fin = .none ∨ e.fin = .last)) ∨ (e.phase = .update ∧ e.fin = .pend1) ∨
    (e.phase ≠ .expand ∧ e.phase ≠ .round ∧ e.t ≠ 0) ∨ (e.phase = .expand ∧ e.t.val < 16) ∨
    e.len.toNat % 8 ≠ 0 := by
  simp [Engine.malformed, or_assoc, and_assoc]

/-- With no reset due, the step stops with the fault exactly where the engine is in such a combination. -/
theorem step_malformedState_iff {s : State} (hr : s.resetDue = false) :
    step s = .fault .malformedState ↔ s.eng.malformed = true := by
  constructor
  · intro h
    unfold step at h
    split at h
    case h_1 => cases h
    case h_2 hev => exact State.nextEvent_stuck hev
    case h_3 => cases h
    case h_4 => cases h
    case h_5 => simpa using exec_malformed h
  · intro hm
    have hev : s.nextEvent = .stuck := by simp [State.nextEvent, hr, hm]
    simp only [step, hev]

/-- Settles O37: the five combinations are those of `Engine.malformed`. -/
theorem malformedStateIsStuck : Obligations.MalformedStateIsStuck :=
  fun s hr => s.eng.malformed_iff.symm.trans (step_malformedState_iff hr).symm

/-! ## Which step writes what -/

/-- Settles O38, instruction by instruction: each effect is a record update, which names what it writes. -/
theorem onlyNamedStepsWrite : Obligations.OnlyNamedStepsWrite := by
  intro s s' hstep
  rcases step_eng hstep with ⟨hev, -⟩ | ⟨-, hsame⟩ | ⟨i, hev, hi⟩
  · simp [hev]
  · simp [hsame]
  have heng := exec_eng hi
  rw [State.passTurn_eng] at heng
  rw [hev]
  rcases heng with hsame | heff
  · simp [hsame]
  cases i with
  | init => simp [heff.2]
  | data b =>
    obtain ⟨-, heng⟩ := heff
    rcases dataEffect_cases b s.eng with ⟨-, hd⟩ | ⟨-, hd⟩ <;> simp [heng, hd]
  | final => simp [heff.2, finalEffect]
  | rddig | rdhex | rdstat => exact heff.elim
  | pad => rcases padEffect_next heff.2 with ⟨-, -, he⟩ | ⟨-, -, he⟩ | ⟨-, he⟩ <;> simp [he]
  | load =>
    obtain ⟨m, -, he⟩ := loadEffect_next heff.2
    simp [he]
  | expand => obtain ⟨-, x, -, ⟨-, he⟩ | ⟨-, he⟩⟩ := expandEffect_next heff.2 <;> simp [he]
  | round => obtain ⟨x, -, ⟨-, he⟩ | ⟨-, he⟩⟩ := roundEffect_next heff.2 <;> simp [he]
  | update =>
    rcases updateEffect_next heff.2 with ⟨-, he⟩ | ⟨-, he⟩ | ⟨-, he⟩ <;> simp [he]

/-- While the engine is neither busy nor in IDLE, only INIT changes it. -/
theorem exec_at_rest {i : Instr} {s s' : State} (h : exec i s = .next s')
    (hb : s.eng.phase.busy = false) (hne : s.eng.phase ≠ .idle) :
    s'.eng = s.eng ∨ (i = .init ∧ s'.eng = s.eng.startMessage) := by
  rcases exec_eng h with hsame | heff
  · exact .inl hsame
  cases i with
  | init => exact .inr ⟨rfl, heff.2⟩
  | data | final => exact absurd heff.1 hne
  | rddig | rdhex | rdstat => exact heff.elim
  | pad | load | expand | round | update => rw [heff.1] at hb; cases hb

/-- Settles O41, event by event. -/
theorem digestStaysUntilRestart : Obligations.DigestStaysUntilRestart := by
  intro s s' hstep hp
  rcases step_eng hstep with ⟨hev, -⟩ | ⟨-, heng⟩ | ⟨i, hev, hi⟩
  · exact .inr (.inl hev)
  · exact .inl heng
  · have hmove := exec_at_rest hi (by simp [hp, Phase.busy]) (by simp [hp])
    rw [State.passTurn_eng] at hmove
    rcases hmove with heng | ⟨rfl, heng⟩
    · exact .inl heng
    · exact .inr (.inr ⟨hev, congrArg Engine.phase heng⟩)

end Sys2Proof.Machine
end

section
/-! SUPPORT. The blocks that PAD builds, the three ways that UPDATE goes on, the absent elements that LOAD,
EXPAND and ROUND meet, the answers to index operands out of range, and with them the obligations on these
instructions. -/

namespace Sys2Proof.Machine

/-! ## PAD -/

theorem Memory.get_setFrom_before {α : Type} (m : Memory α) (vs : List α) {i j : Nat} (h : j < i) :
    (m.setFrom i vs).get j = m.get j := by
  rw [Memory.get_setFrom, if_neg (by omega)]

/-- The block that PAD completes with the length, byte by byte (41_padding.md R146, first case). -/
theorem padTail_bytes {e : Engine} (hf : e.fill ≤ 55) {buf : Memory Byte}
    (hbuf : buf = e.buf.setFrom e.fill (padTail e)) :
    (∀ j, j < e.fill → buf.get j = e.buf.get j) ∧ buf.get e.fill = some 0x80 ∧
    (∀ j, e.fill < j → j ≤ 55 → buf.get j = some 0x00) ∧
    (∀ k, k < 8 → buf.get (56 + k) = some (e.len.extractLsb' (56 - 8 * k) 8)) ∧
    (∀ j, 64 ≤ j → buf.get j = e.buf.get j) := by
  subst hbuf
  have hlen := padTail_length hf
  refine ⟨fun j hj => Memory.get_setFrom_before _ _ hj, ?marker, fun j hlo hhi => ?zeros,
    padTail_endsWithLength hf, fun j hj => Memory.get_setFrom_after _ _ (by omega)⟩
  case marker => rw [Memory.get_setFrom, if_pos (by omega), Nat.sub_self, padTail_get hf, if_pos rfl]
  case zeros =>
    rw [Memory.get_setFrom, if_pos (by omega), padTail_get hf, if_neg (by omega), if_pos (by omega)]

/-- The block that PAD completes without the length (41_padding.md R146, second case). -/
theorem padCut_bytes {e : Engine} {buf : Memory Byte} (hbuf : buf = e.buf.setFrom e.fill (padCut e)) :
    (∀ j, j < e.fill → buf.get j = e.buf.get j) ∧ buf.get e.fill = some 0x80 ∧
    (∀ j, e.fill < j → j ≤ 63 → buf.get j = some 0x00) ∧
    (∀ j, 64 ≤ j → buf.get j = e.buf.get j) := by
  subst hbuf
  have hlen := padCut_length e
  have hfill := e.fill_lt
  refine ⟨fun j hj => Memory.get_setFrom_before _ _ hj, ?marker, fun j hlo hhi => ?zeros,
    fun j hj => Memory.get_setFrom_after _ _ (by omega)⟩
  case marker => rw [Memory.get_setFrom, if_pos (by omega), Nat.sub_self, padCut_get, if_pos rfl]
  case zeros =>
    rw [Memory.get_setFrom, if_pos (by omega), padCut_get, if_neg (by omega), if_pos (by omega)]

/-- The second padding block (41_padding.md R146, third case). -/
theorem padRest_bytes {e : Engine} {buf : Memory Byte} (hbuf : buf = e.buf.setFrom 0 (padRest e)) :
    (∀ j, j ≤ 55 → buf.get j = some 0x00) ∧
    (∀ k, k < 8 → buf.get (56 + k) = some (e.len.extractLsb' (56 - 8 * k) 8)) ∧
    (∀ j, 64 ≤ j → buf.get j = e.buf.get j) := by
  have hlen := padRest_length e
  refine ⟨fun j hj => ?zeros, fun k hk => ?length, fun j hj => ?after⟩
  case zeros => rw [hbuf, Memory.get_setFrom, if_pos (by omega), padRest_get, if_pos (by omega)]
  case length => rw [hbuf, padRest_endsWithLength e k hk]
  case after => rw [hbuf, Memory.get_setFrom_after _ _ (by omega)]

/-- PAD writes BUF, FIN and PHASE, and nothing beside. -/
theorem exec_pad_of_effect {s : State} {buf : Memory Byte} {f : Finalization} (hp : s.eng.phase = .pad)
    (h : padEffect s.eng = .next { s.eng with buf := buf, fin := f, phase := .load }) :
    ∃ t, exec .pad s = .next t ∧ s.SamePort t ∧
      t.eng = { s.eng with buf := t.eng.buf, fin := f, phase := .load } ∧ t.eng.buf = buf :=
  ⟨_, State.micro_of_next hp h, ⟨rfl, rfl, rfl, rfl⟩, rfl, rfl⟩

theorem padEffect_stop {e : Engine} (hf : e.fin = .none ∨ e.fin = .last) :
    padEffect e = .stop .malformedState := by
  rcases hf with hf | hf <;> simp only [padEffect, hf]

/-- Settles O31, case by case. -/
theorem padBuildsBlock : Obligations.PadBuildsBlock := by
  refine fun s hp => ⟨fun hf hle => ?fits, fun hf hge => ?cut, fun hf => ?rest,
    fun hf => State.micro_of_stop hp (padEffect_stop hf)⟩
  case fits =>
    obtain ⟨t, hexec, hport, heng, hbuf⟩ := exec_pad_of_effect hp (padEffect_fits hf hle)
    exact ⟨t, hexec, hport, heng, padTail_bytes hle hbuf⟩
  case cut =>
    obtain ⟨t, hexec, hport, heng, hbuf⟩ := exec_pad_of_effect hp (padEffect_cut hf hge)
    exact ⟨t, hexec, hport, heng, padCut_bytes hbuf⟩
  case rest =>
    obtain ⟨t, hexec, hport, heng, hbuf⟩ := exec_pad_of_effect hp (padEffect_rest hf)
    exact ⟨t, hexec, hport, heng, padRest_bytes hbuf⟩

/-! ## UPDATE -/

theorem updateEffect_pend1 {e : Engine} (hf : e.fin = .pend1) :
    updateEffect e = .stop .malformedState := by
  simp only [updateEffect, hf]

/-- Settles O35, by FIN. -/
theorem updateAddsAndContinues : Obligations.UpdateAddsAndContinues := by
  refine fun s hp => ⟨fun hne => ?goes, fun hf => State.micro_of_stop hp (updateEffect_pend1 hf)⟩
  have sums (i : Fin 8) : (Oct.zip addMod s.eng.h s.eng.v).get i = s.eng.h.get i + s.eng.v.get i :=
    Oct.get_zip addMod _ _ i
  cases hf : s.eng.fin with
  | none =>
    exact ⟨_, State.micro_of_next hp (updateEffect_none hf), ⟨rfl, rfl, rfl, rfl⟩, rfl, sums,
      fun _ => ⟨rfl, hf⟩, nofun, nofun⟩
  | pend1 => exact absurd hf hne
  | pend2 =>
    exact ⟨_, State.micro_of_next hp (updateEffect_pend2 hf), ⟨rfl, rfl, rfl, rfl⟩, rfl, sums,
      nofun, fun _ => ⟨rfl, hf⟩, nofun⟩
  | last =>
    exact ⟨_, State.micro_of_next hp (updateEffect_last hf), ⟨rfl, rfl, rfl, rfl⟩, rfl, sums,
      nofun, nofun, fun _ => ⟨rfl, rfl⟩⟩

/-! ## Absent elements -/

theorem blockWord_of_absent {buf : Memory Byte} {j i : Nat} (hlo : 4 * j ≤ i) (hhi : i < 4 * j + 4)
    (h : buf.get i = none) : blockWord buf j = none := by
  have hi : i = 4 * j ∨ i = 4 * j + 1 ∨ i = 4 * j + 2 ∨ i = 4 * j + 3 := by omega
  unfold blockWord
  split
  · rcases hi with rfl | rfl | rfl | rfl <;> simp_all
  · rfl

/-- A block with an absent byte cannot be read. -/
theorem blockWords_of_absent {buf : Memory Byte} {i : Nat} (h : buf.get i = none) : ∀ {n j : Nat},
    4 * j ≤ i → i < 4 * (j + n) → blockWords buf j n = none := by
  intro n
  induction n with
  | zero => intro j hlo hhi; omega
  | succ n ih =>
    intro j hlo hhi
    rw [blockWords]
    by_cases hword : i < 4 * j + 4
    · simp [blockWord_of_absent hlo hword h]
    · simp [ih (j := j + 1) (by omega) (by omega)]

theorem expandWord_of_absent {w : Memory Word} {t : Nat} (h : w.get (t - 16) = none ∨
    w.get (t - 15) = none ∨ w.get (t - 7) = none ∨ w.get (t - 2) = none) : expandWord w t = none := by
  unfold expandWord
  split
  · rcases h with h | h | h | h <;> simp_all
  · rfl

/-- Settles O36, for each of the three micro-steps that read a memory. -/
theorem absentElementFaults : Obligations.AbsentElementFaults := by
  refine fun s => ⟨fun hp ⟨j, hj, habs⟩ => ?load, fun hp ht habs => ?expand, fun hp habs => ?round⟩
  case load =>
    have hnone := blockWords_of_absent habs (n := 16) (j := 0) (by omega) (by omega)
    exact State.micro_of_stop hp (by simp only [loadEffect, hnone])
  case expand =>
    have hnone := expandWord_of_absent habs
    exact State.micro_of_stop hp (by simp only [expandEffect, hnone, if_neg (Nat.not_lt.mpr ht)])
  case round => exact State.micro_of_stop hp (by simp only [roundEffect, habs])

/-! ## Index operands out of range -/

theorem respWord_nakIllegal_zero : respWord .nakIllegal 0 = 0x1000 := by decide

theorem State.refuseIllegal_eq (s : State) :
    s.refuseIllegal = { s with cmds := s.cmds.tail, resps := s.resps ++ [0x1000] } := by
  rw [State.refuseIllegal, State.respond, respWord_nakIllegal_zero]

/-- Settles O27, for RDDIG and for RDHEX. -/
theorem indexOutOfRangeIsIllegal : Obligations.IndexOutOfRangeIsIllegal := by
  refine fun s n => ⟨fun h => ?digest, fun h => ?hex⟩
  case digest => rw [← State.refuseIllegal_eq]; exact if_neg (Nat.not_lt.mpr h)
  case hex => rw [← State.refuseIllegal_eq]; exact if_neg (Nat.not_lt.mpr h)

end Sys2Proof.Machine
end

section
/-! SUPPORT. One block, one busy period, one sequence of words under every order of steps, the words of a whole
message, and with them the obligations on runs (70_reset_and_hazards.md, section 4). -/

namespace Sys2Proof.Machine

/-! ## One block -/

/-- Settles O49: the engine runs its micro-steps one after the other, and 49 and 114 of them are
`block_to_round` and `block_to_end`. -/
theorem blockIsCompressed : Obligations.BlockIsCompressed := by
  intro s f hi hp hr hw hbuf
  have hleft : 114 ≤ s.eng.stepsLeft := by simp only [Engine.stepsLeft, hp]; omega
  obtain ⟨s1, hrun1, heng1, -, -⟩ := run_ticks 49 hi hr hw (by omega)
  obtain ⟨s2, hrun2, heng2, hcmds, hresps⟩ := run_ticks 114 hi hr hw hleft
  obtain ⟨w, hw1, h1⟩ := block_to_round hp hbuf
  obtain ⟨w2, v2, h2⟩ := block_to_end hi hp hbuf
  rw [h1] at heng1
  rw [h2] at heng2
  refine ⟨s1, s2, hrun1, hrun2, ?_⟩
  rw [heng1, heng2]
  exact ⟨rfl, rfl, rfl, rfl, hw1, rfl, rfl, rfl, hcmds, hresps, fun hf => by rw [hf], fun hf => by rw [hf],
    fun hf => by rw [hf]⟩

/-! ## One busy period -/

/-- No micro-step enters phase ERROR. -/
theorem tick_not_error {e : Engine} (h : e.Inv) (hne : e.phase ≠ .error) : e.tick.phase ≠ .error := by
  obtain ⟨hn, -⟩ := h.micro
  generalize e.tick = e' at hn
  cases hp : e.phase with
  | idle | done =>
    simp only [Engine.micro, hp] at hn
    cases hn
    exact hne
  | error => exact absurd hp hne
  | pad =>
    rw [Engine.micro_pad hp] at hn
    exact (padEffect_control hn).1 ▸ nofun
  | load =>
    rw [Engine.micro_load hp] at hn
    exact (loadEffect_control hn).1 ▸ nofun
  | expand =>
    rw [Engine.micro_expand hp] at hn
    obtain ⟨-, ⟨-, hq, -⟩ | ⟨-, hq, -⟩⟩ := expandEffect_control hn
    · exact hq ▸ hne
    · exact hq ▸ nofun
  | round =>
    rw [Engine.micro_round hp] at hn
    obtain ⟨-, ⟨-, hq, -⟩ | ⟨-, hq, -⟩⟩ := roundEffect_control hn
    · exact hq ▸ hne
    · exact hq ▸ nofun
  | update =>
    rw [Engine.micro_update hp] at hn
    obtain ⟨-, ⟨-, hq, -⟩ | ⟨-, hq, -⟩ | ⟨-, hq, -⟩⟩ := updateEffect_control hn <;>
      exact hq ▸ nofun

theorem ticks_not_error : ∀ (k : Nat) {e : Engine}, e.Inv → e.phase ≠ .error →
    (e.ticks k).phase ≠ .error := by
  intro k
  induction k with
  | zero => intro e _ hne; exact hne
  | succ k ih => intro e h hne; exact ih h.tick (tick_not_error h hne)

/-- Settles O50: the busy period is `stepsLeft` micro-steps, and they do not lead to phase ERROR. -/
theorem busyEndsWithin230Steps : Obligations.BusyEndsWithin230Steps := by
  intro s hi hr hw hb
  obtain ⟨t, hrun, heng, hcmds, hresps⟩ := run_ticks s.eng.stepsLeft hi hr hw (Nat.le_refl _)
  refine ⟨stepsLeft_le hi, t, hrun, ?_, hcmds, hresps⟩
  have hquiet : t.eng.phase.busy = false := heng ▸ settle_not_busy hi
  have hne : t.eng.phase ≠ .error :=
    heng ▸ ticks_not_error _ hi fun herr => by rw [herr] at hb; cases hb
  rcases Phase.not_busy_iff.mp hquiet with hp | hp | hp
  · exact .inl hp
  · exact .inr hp
  · exact absurd hp hne

/-! ## Every sequence of words -/

theorem outs_length (cs : List CmdWord) : ∀ e, (outs cs e).length = cs.length := by
  induction cs with
  | nil => intro e; rfl
  | cons c cs ih =>
    intro e
    rw [outs]
    split <;> rw [List.length_cons, List.length_cons, ih]

/-- Each word costs one step beside the busy period before it, and one busy period follows the last word. -/
theorem work_le (cs : List CmdWord) : ∀ {e : Engine}, e.Inv → work cs e ≤ 231 * cs.length + 230 := by
  induction cs with
  | nil => intro e h; simpa [work] using stepsLeft_le h
  | cons c cs ih =>
    intro e h
    have hbusy := stepsLeft_le h
    have hhere := ih h
    have hnext := ih (wordAnswer_inv (c := c) (settle_inv h))
    rw [work, List.length_cons]
    split <;> omega

/-- Settles O51: `work` counts the steps to the end of the run. -/
theorem everyWordIsAnswered : Obligations.EveryWordIsAnswered := by
  intro s hi hr
  obtain ⟨t, hrun, hover⟩ := run_work _ rfl hi hr
  obtain ⟨-, rs, hresps, hfits⟩ := run_feed _ hi hr hrun hover
  exact ⟨_, t, work_le s.cmds hi, hrun, hover, rs, hresps, by rw [← hfits.length_eq, outs_length]⟩

/-- The response to every word but RDSTAT is known from the words and the engine alone. -/
theorem outs_known (cs : List CmdWord) : ∀ (e : Engine) {i : Nat} {c : CmdWord}, cs[i]? = some c →
    c ≠ 0x6000 → ∃ r, (outs cs e)[i]? = some (some r) := by
  induction cs with
  | nil => intro e i c hc; simp at hc
  | cons d cs ih =>
    intro e i c hc hne
    cases i with
    | zero =>
      obtain rfl : d = c := by simpa using hc
      rw [outs]
      split <;> exact ⟨_, rfl⟩
    | succ i =>
      rw [List.getElem?_cons_succ] at hc
      rw [outs]
      split <;> rw [List.getElem?_cons_succ] <;> exact ih _ hc hne

theorem fits_getElem? {os : List (Option RespWord)} {rs : List RespWord} (h : List.Forall₂ fits os rs)
    {i : Nat} {r : RespWord} (hi : os[i]? = some (some r)) : rs[i]? = some r := by
  induction h generalizing i with
  | nil => simp at hi
  | cons hfit _ ih =>
    cases i with
    | zero => exact congrArg some (hfit r (Option.some.inj hi))
    | succ i => exact ih hi

/-- Settles O52: both runs end in `feed` of the same words and engine, and their responses fit the same `outs`. -/
theorem orderOfStepsDoesNotMatter : Obligations.OrderOfStepsDoesNotMatter := by
  intro s1 s2 t1 t2 k1 k2 hi heng hcmds hresps hr1 hr2 hrun1 hover1 hrun2 hover2
  obtain ⟨heng1, rs1, hresps1, hfits1⟩ := run_feed k1 hi hr1 hrun1 hover1
  obtain ⟨heng2, rs2, hresps2, hfits2⟩ := run_feed k2 (heng ▸ hi) hr2 hrun2 hover2
  rw [← heng, ← hcmds] at heng2 hfits2
  rw [← hresps] at hresps2
  refine ⟨heng1.trans heng2.symm, ?length, fun i c hc hne => ?response⟩
  case length =>
    rw [hresps1, hresps2, List.length_append, List.length_append, ← hfits1.length_eq, ← hfits2.length_eq]
  case response =>
    obtain ⟨r, hr⟩ := outs_known s1.cmds s1.eng hc hne
    rw [hresps1, hresps2, List.getElem?_append_right (Nat.le_add_right _ _),
      List.getElem?_append_right (Nat.le_add_right _ _), Nat.add_sub_cancel_left,
      fits_getElem? hfits1 hr, fits_getElem? hfits2 hr]

/-! ## The words of a whole message -/

/-- The words `cs` take the engine `e` through the whole of the message `m` (70_reset_and_hazards.md R262). -/
structure HashRun (m : List Byte) (cs : List CmdWord) (e : Engine) : Prop where
  phase : (feed cs e).phase = .done
  h : (feed cs e).h = foldBlocks iv (blocks (padded m))
  work : work cs e = cs.length + 114 * blockCount m.length + padSteps m.length
  outs : ∀ o ∈ outs cs e, o = some 0

theorem effective_final : effective (cmdWord 3 0 0) = true :=
  (effective_of_decode (i := .final) rfl).mpr nofun

theorem effective_init : effective (cmdWord 1 0 0) = true :=
  (effective_of_decode (i := .init) rfl).mpr nofun

/-- After the start of a message, its bytes and FINAL. -/
theorem hashRun_message {m : List Byte} {e : Engine} (a : Absorbed [] e) (hm : m.length < 2 ^ 61) :
    HashRun m (dataWords m ++ [cmdWord 3 0 0]) e := by
  obtain ⟨e', a', hfeed, hwork, houts⟩ := absorb_words m [] e a (by simp; omega) [cmdWord 3 0 0]
  rw [List.nil_append] at a'
  obtain ⟨hcode, hdata, hleft, hphase, hh⟩ := absorb_final a' (by omega)
  have hb : e'.phase.busy = false := by rw [a'.phase]; rfl
  have hfinal : feed [cmdWord 3 0 0] e' = settle (wordAnswer (cmdWord 3 0 0) e').eng := by
    rw [feed, if_pos effective_final, settle_quiet hb, feed]
  have hlast : work [cmdWord 3 0 0] e' = 1 + if m.length % 64 ≤ 55 then 115 else 230 := by
    rw [work, if_pos effective_final, settle_quiet hb, stepsLeft_zero hb, work, hleft]
  have hout : outs [cmdWord 3 0 0] e' = [some 0] := by
    rw [outs, if_pos effective_final, settle_quiet hb, hcode, hdata, outs]
    rfl
  refine ⟨by rw [hfeed, hfinal, hphase], by rw [hfeed, hfinal, hh], ?work, ?outs⟩
  case work =>
    have hlen : (dataWords m ++ [cmdWord 3 0 0]).length = m.length + 1 := by simp [dataWords]
    rw [hlast, List.length_nil] at hwork
    rw [hlen, blockCount, padSteps]
    split at hwork <;> rename_i h55
    · rw [if_pos h55]; omega
    · rw [if_neg h55]; omega
  case outs =>
    rw [houts, hout]
    intro o ho
    rcases List.mem_append.mp ho with ho | ho
    · exact List.eq_of_mem_replicate ho
    · exact List.mem_singleton.mp ho

/-- INIT first, from any engine that is not busy. -/
theorem hashRun_init {m : List Byte} {e : Engine} (h : e.Inv) (hb : e.phase.busy = false)
    (hm : m.length < 2 ^ 61) : HashRun m (hashWords m) e := by
  have hrest := hashRun_message (absorbed_nil (inv_init h) rfl rfl rfl) hm
  have hinit : (wordAnswer (cmdWord 1 0 0) (settle e)).eng = e.startMessage := by
    rw [settle_quiet hb, wordAnswer_init, initEffect]
  refine ⟨?phase, ?h, ?work, ?outs⟩
  case phase => rw [hashWords, feed, if_pos effective_init, hinit, hrest.phase]
  case h => rw [hashWords, feed, if_pos effective_init, hinit, hrest.h]
  case work =>
    rw [hashWords, work, if_pos effective_init, hinit, hrest.work, stepsLeft_zero hb, List.length_cons]
    omega
  case outs =>
    rw [hashWords, outs, if_pos effective_init, hinit]
    intro o ho
    rcases List.mem_cons.mp ho with rfl | ho
    · rw [settle_quiet hb, wordAnswer_init]
      exact congrArg some respWord_ok_zero
    · exact hrest.outs o ho

/-- The response to an effective word is one of those to the effective words alone. -/
theorem outs_effective (cs : List CmdWord) : ∀ (e : Engine) {i : Nat} {c : CmdWord}, cs[i]? = some c →
    effective c = true → ∃ o ∈ outs (cs.filter effective) e, (outs cs e)[i]? = some o := by
  induction cs with
  | nil => intro e i c hc; simp at hc
  | cons d cs ih =>
    intro e i c hc hce
    cases hd : effective d with
    | true =>
      rw [List.filter_cons_of_pos hd, outs, if_pos hd, outs, if_pos hd]
      cases i with
      | zero => exact ⟨_, List.mem_cons_self, rfl⟩
      | succ i =>
        obtain ⟨o, ho, hget⟩ := ih _ hc hce
        exact ⟨o, List.mem_cons_of_mem _ ho, hget⟩
    | false =>
      have hne : ¬ effective d = true := by rw [hd]; decide
      rw [List.filter_cons_of_neg hne, outs, if_neg hne]
      cases i with
      | zero =>
        obtain rfl : d = c := by simpa using hc
        exact absurd hce hne
      | succ i => exact ih e hc hce

theorem hashOf_eq {m : List Byte} (hm : m.length < 2 ^ 61) :
    hashOf m = .ok (serialize (foldBlocks iv (blocks (padded m)))) := by
  rw [hashOf, pad_eq (by omega)]

/-- Settles O53: RDSTAT and illegal words change nothing and cost a step each, and the words that are left are
the message's. -/
theorem engineComputesHash : Obligations.EngineComputesHash := by
  intro s m hi hb hr hm hwords
  have hmsg : HashRun m (s.cmds.filter effective) s.eng := by
    rcases hwords with hwords | ⟨heng, hwords⟩ <;> rw [hwords]
    · exact hashRun_init hi hb hm
    · rw [heng]
      exact hashRun_message (absorbed_nil inv_reset rfl rfl rfl) hm
  obtain ⟨hfeed, hwork⟩ := feed_filter s.cmds s.eng
  obtain ⟨t, hrun, hover⟩ := run_work _ rfl hi hr
  obtain ⟨heng, rs, hresps, hfits⟩ := run_feed _ hi hr hrun hover
  rw [← hfeed] at heng
  rw [hmsg.work] at hwork
  rw [show work s.cmds s.eng = s.cmds.length + 114 * blockCount m.length + padSteps m.length by omega] at hrun
  refine ⟨t, rs, hrun, hover, by rw [heng, hmsg.phase], by rw [heng, hmsg.h, hashOf_eq hm], hresps,
    by rw [← hfits.length_eq, outs_length], fun i c hc hce => ?answer⟩
  obtain ⟨o, ho, hget⟩ := outs_effective s.cmds s.eng hc hce
  rw [hmsg.outs o ho] at hget
  exact fits_getElem? hfits hget

end Sys2Proof.Machine
end

section
/-! SUPPORT. The constants as integer roots (10_state.md R26, R27), the pseudo-commands' words read back by the
decoder (30_encoding.md R94), two engines that differ in V alone step by step (log entry 18), and with them the
obligations on these. -/

namespace Sys2Proof.Machine

/-! ## The constants -/

/-- The sixty-four primes below 312. -/
def firstPrimes : List Nat :=
  [2, 3, 5, 7, 11, 13, 17, 19, 23, 29, 31, 37, 41, 43, 47, 53, 59, 61, 67, 71, 73, 79, 83, 89, 97, 101,
   103, 107, 109, 113, 127, 131, 137, 139, 149, 151, 157, 163, 167, 173, 179, 181, 191, 193, 197, 199,
   211, 223, 227, 229, 233, 239, 241, 251, 257, 263, 269, 271, 277, 281, 283, 293, 307, 311]

theorem filter_range_eq_firstPrimes : ((List.range 312).filter fun n =>
    decide (2 ≤ n) && (List.range n).all fun d => decide (d < 2) || n % d != 0) = firstPrimes := by
  decide +kernel

theorem kAt_cubeRoot : ∀ t, t < 64 → ∃ a, a < 7 ∧
    (a * 2 ^ 32 + (kAt t).toNat) ^ 3 ≤ firstPrimes.getD t 0 * 2 ^ 96 ∧
    firstPrimes.getD t 0 * 2 ^ 96 < (a * 2 ^ 32 + (kAt t).toNat + 1) ^ 3 := by
  decide +kernel

theorem iv_squareRoot : ∀ i : Fin 8, ∃ a, a < 5 ∧
    (a * 2 ^ 32 + (iv.get i).toNat) ^ 2 ≤ firstPrimes.getD i.val 0 * 2 ^ 64 ∧
    firstPrimes.getD i.val 0 * 2 ^ 64 < (a * 2 ^ 32 + (iv.get i).toNat + 1) ^ 2 := by
  decide +kernel

/-- Settles O7: the tables are checked entry by entry against the integer roots. -/
theorem constantsAreRootsOfPrimes : Obligations.ConstantsAreRootsOfPrimes := by
  unfold Obligations.ConstantsAreRootsOfPrimes
  rw [filter_range_eq_firstPrimes]
  exact ⟨rfl, kAt_cubeRoot, iv_squareRoot⟩

/-! ## The pseudo-commands -/

theorem decodeCommand_data (b : Byte) : decodeCommand (cmdWord 2 0 b) = .ok (.data b) := by
  rw [decodeCommand_cmdWord]; rfl

theorem dataWords_decode (text : List Byte) :
    (dataWords text).map decodeCommand = text.map fun b => .ok (.data b) := by
  rw [dataWords, List.map_map]
  exact List.map_congr_left fun b _ => decodeCommand_data b

/-- The words of a command with an index, for every index below a bound that a byte holds. -/
theorem indexedWords_decode {f : Byte → Instr} {op : BitVec 4} {bound : Nat} (hbound : bound ≤ 256)
    (hop : ∀ b, decodeOp op.toNat b = decodeIndexed f bound b) :
    ((List.range bound).map fun i => cmdWord op 0 (BitVec.ofNat 8 i)).map decodeCommand =
      (List.range bound).map fun i => .ok (f (BitVec.ofNat 8 i)) := by
  rw [List.map_map]
  refine List.map_congr_left fun i hi => ?_
  have hlt : (BitVec.ofNat 8 i).toNat < bound := by
    rw [BitVec.toNat_ofNat, Nat.mod_eq_of_lt] <;> have := List.mem_range.mp hi <;> omega
  rw [Function.comp_apply, decodeCommand_cmdWord, if_pos rfl, hop]
  exact if_pos hlt

theorem operandWord_data (b : Byte) : operandWord .data b.toNat = some (cmdWord 2 0 b) := by
  rw [operandWord, if_pos b.isLt, BitVec.ofNat_toNat, BitVec.setWidth_eq]
  rfl

/-- Settles O54, pseudo-command by pseudo-command. -/
theorem pseudoCommandsExpand : Obligations.PseudoCommandsExpand := by
  refine fun text n b => ⟨congrArg some (dataWords_decode text), congrArg some ?hash,
    congrArg some (indexedWords_decode (by decide) fun _ => rfl),
    congrArg some (indexedWords_decode (by decide) fun _ => rfl), ?rep⟩
  case hash =>
    show (hashWords text).map decodeCommand = _
    rw [hashWords, List.map_cons, List.map_append, dataWords_decode]
    rfl
  case rep =>
    rw [AsmLine.words, operandWord_data]
    exact congrArg some ((List.map_replicate).trans (by rw [decodeCommand_data]))

/-! ## The reset value of V -/

/-- The engine with another V. -/
def Engine.setV (e : Engine) (v : Oct Word) : Engine := { e with v := v }

/-- The machine with another V. -/
def State.setV (s : State) (v : Oct Word) : State := { s with eng := s.eng.setV v }

/-- The phases in which V holds what LOAD seeded and the rounds made of it. -/
def Phase.usesV (p : Phase) : Prop := p = .expand ∨ p = .round ∨ p = .update

theorem State.setV_self (s : State) : s.setV s.eng.v = s := rfl

section SetV
variable (s : State) (v : Oct Word)

/-- Which step is next does not depend on V. -/
theorem State.nextEvent_setV : (s.setV v).nextEvent = s.nextEvent := rfl

theorem State.passTurn_setV : (s.setV v).passTurn = s.passTurn.setV v := by
  cases ht : s.turns with
  | cons u us =>
    have ht' : (s.setV v).turns = u :: us := ht
    rw [State.passTurn_cons ht, State.passTurn_cons ht']
    rfl
  | nil =>
    have hcont : (s.setV v).contended = s.contended := rfl
    have hturns : (s.setV v).turns = s.turns := rfl
    simp only [State.passTurn, hturns, ht, hcont]
    split <;> rfl

end SetV

/-- DATA neither reads nor writes V. -/
theorem dataEffect_setV (b : Byte) (e : Engine) (v : Oct Word) : dataEffect b (e.setV v) =
    { dataEffect b e with eng := (dataEffect b e).eng.setV v } := by
  rcases dataEffect_cases b e with ⟨hmax, hd⟩ | ⟨hmax, hd⟩ <;> rw [hd]
  · exact dataEffect_atLimit b hmax
  · exact dataEffect_belowLimit b hmax

/-- No answer depends on V, and no command writes it. -/
theorem instrAnswer_setV (i : Instr) (e : Engine) (v : Oct Word) : instrAnswer i (e.setV v) =
    { instrAnswer i e with eng := (instrAnswer i e).eng.setV v } := by
  have hphase : (e.setV v).phase = e.phase := rfl
  cases i with
  | data b =>
    simp only [instrAnswer, hphase, dataEffect_setV]
    split <;> rfl
  | final | rddig | rdhex =>
    simp only [instrAnswer, hphase]
    split <;> rfl
  | init | rdstat | pad | load | expand | round | update => rfl

/-- No command leads into the phases that use V. -/
theorem instrAnswer_not_usesV (i : Instr) {e : Engine} (h : ¬ e.phase.usesV) :
    ¬ (instrAnswer i e).eng.phase.usesV := by
  cases i with
  | init => simp [instrAnswer, initEffect, Phase.usesV]
  | data b =>
    simp only [instrAnswer]
    split
    · next hp =>
      obtain ⟨-, -, ⟨-, -, hq⟩ | ⟨-, -, hq⟩ | ⟨-, hq⟩⟩ := dataEffect_control b hp <;>
        simp [hq, Phase.usesV]
    · exact h
  | final =>
    simp only [instrAnswer]
    split
    · simp [finalEffect, Phase.usesV]
    · exact h
  | rddig | rdhex =>
    simp only [instrAnswer]
    split <;> exact h
  | rdstat | pad | load | expand | round | update => exact h

/-- `t` with another V, which is `t` itself where V is in use. -/
def SameButV (t u : State) : Prop := ∃ v, u = t.setV v ∧ (t.eng.phase.usesV → v = t.eng.v)

theorem sameButV_refl (t : State) : SameButV t t := ⟨t.eng.v, rfl, fun _ => rfl⟩

theorem sameButV_setV {t : State} (h : ¬ t.eng.phase.usesV) (v : Oct Word) : SameButV t (t.setV v) :=
  ⟨v, rfl, fun hu => absurd hu h⟩

/-- A command that is not held, run with another V. -/
theorem exec_command_setV {i : Instr} {c : CmdWord} {s t : State} (v : Oct Word)
    (hd : decodeCommand c = .ok i) (hh : held c s.eng.phase = false) (hu : ¬ s.eng.phase.usesV)
    (h : exec i s = .next t) : ∃ u, exec i (s.setV v) = .next u ∧ SameButV t u := by
  rw [exec_answer hd hh] at h
  cases h
  refine ⟨_, exec_answer hd hh, ?_⟩
  rw [show (s.setV v).eng = s.eng.setV v from rfl, instrAnswer_setV]
  exact sameButV_setV (instrAnswer_not_usesV i hu) v

/-- A micro-step of a phase that does not use V: PAD leaves it, LOAD gives it its own value. -/
theorem exec_micro_setV {i : Instr} {s t : State} (v : Oct Word)
    (hd : decodeMicroStep s.eng.phase.code = .ok i) (hu : ¬ s.eng.phase.usesV)
    (h : exec i s = .next t) : ∃ u, exec i (s.setV v) = .next u ∧ SameButV t u := by
  rcases microStep_cases hd with ⟨hp, rfl⟩ | ⟨hp, rfl⟩ | ⟨hp, -⟩ | ⟨hp, -⟩ | ⟨hp, -⟩
  · obtain ⟨-, e, he, rfl⟩ := State.micro_next.mp h
    refine ⟨_, State.micro_of_next hp (padEffect_next_setV v he), sameButV_setV ?_ v⟩
    simp [(padEffect_control he).1, Phase.usesV]
  · obtain ⟨-, e, he, rfl⟩ := State.micro_next.mp h
    obtain ⟨m, hm, rfl⟩ := loadEffect_next he
    exact ⟨_, State.micro_of_next hp (loadEffect_of hm), sameButV_refl _⟩
  · exact absurd (.inl hp) hu
  · exact absurd (.inr (.inl hp)) hu
  · exact absurd (.inr (.inr hp)) hu

/-- A step run with another V. -/
theorem step_sameButV {s s' t : State} (hs : SameButV s s') (h : step s = .next t) :
    ∃ u, step s' = .next u ∧ SameButV t u := by
  obtain ⟨v, rfl, hv⟩ := hs
  by_cases hu : s.eng.phase.usesV
  · rw [hv hu, State.setV_self]
    exact ⟨t, h, sameButV_refl t⟩
  have hu' : ¬ s.passTurn.eng.phase.usesV := by rwa [State.passTurn_eng]
  simp only [step, State.nextEvent_setV, State.passTurn_setV]
  rcases step_next h with ⟨hev, rfl⟩ | ⟨hev, rfl⟩ | ⟨hev, rfl⟩ | ⟨i, hev, hi⟩ <;> rw [hev]
  · exact ⟨_, rfl, sameButV_refl _⟩
  · exact ⟨_, rfl, sameButV_setV hu' v⟩
  · exact ⟨_, rfl, sameButV_setV (t := s.passTurn.refuseIllegal) hu' v⟩
  · obtain ⟨-, -, ⟨-, c, cs, -, hd, hh⟩ | ⟨-, -, hd⟩⟩ := State.nextEvent_run hev
    · exact exec_command_setV v hd (by rwa [State.passTurn_eng]) hu' hi
    · exact exec_micro_setV v (by rwa [State.passTurn_eng]) hu' hi

/-- Runs that begin alike but for V go on alike. -/
theorem run_sameButV : ∀ (k : Nat) {s s' t : State}, SameButV s s' → Host.Core.run core k s = .next t →
    ∃ u, Host.Core.run core k s' = .next u ∧ SameButV t u := by
  intro k
  induction k with
  | zero =>
    intro s s' t hs h
    cases h
    exact ⟨s', rfl, hs⟩
  | succ k ih =>
    intro s s' t hs h
    obtain ⟨s1, hstep, hrun⟩ := run_succ_next h
    obtain ⟨u1, hstep', hs1⟩ := step_sameButV hs hstep
    rw [run_succ_of_next hstep']
    exact ih hs1 hrun

/-- Settles O55, step by step along both runs. -/
theorem resetValueOfVNeverShows : Obligations.ResetValueOfVNeverShows := by
  intro s t v k hexpand hround hupdate hrun
  have hu : ¬ s.eng.phase.usesV := by simp [Phase.usesV, hexpand, hround, hupdate]
  obtain ⟨_, hrun', v', rfl, hv'⟩ := run_sameButV k (sameButV_setV hu v) hrun
  exact ⟨v', hrun', hv'⟩

end Sys2Proof.Machine
end
